-- ==== Sys2Proof/Word.lean ====
section
/-! DEFINITION. The machine word: the byte of memory cells, registers and FL (00_scope.md R6, R8). -/

namespace Sys2Proof

/-- The one data width of the CORE: memory cells, register slots and FL are 8 bits (R6). -/
abbrev Byte := BitVec 8

/-- `wrap8(v) = v mod 256`, the non-negative remainder for a negative `v` (R8). -/
def wrap8 (v : Int) : Byte := BitVec.ofInt 8 v

end Sys2Proof
end

