-- ==== Sys2Proof/Machine/Flags.lean ====
section
/-! DEFINITION. The flag byte CMP computes and the tests of the conditional jumps (10_state.md R29,
41_alu.md R134, 44_control.md R174 to R179). FL is tested by its value, not by its bits. -/

namespace Sys2Proof.Machine

/-- FL after an Equal comparison. -/
def flEqual : Byte := 1

/-- FL after a Greater comparison. -/
def flGreater : Byte := 2

/-- FL after a Less comparison. -/
def flLess : Byte := 4

/-- The FL that CMP writes for operand values `x` and `y`; the comparison is unsigned (R134). -/
def compareFlags (x y : Byte) : Byte :=
  if x.toNat = y.toNat then flEqual else if x.toNat > y.toNat then flGreater else flLess

/-- JEQ is taken (R174). -/
def condEq (fl : Byte) : Bool := fl == flEqual

/-- JNE is taken (R175). -/
def condNe (fl : Byte) : Bool := fl != flEqual

/-- JGT is taken (R176). -/
def condGt (fl : Byte) : Bool := fl == flGreater

/-- JLT is taken (R177). -/
def condLt (fl : Byte) : Bool := fl == flLess

/-- JGE is taken: the complement of Less (R178). -/
def condGe (fl : Byte) : Bool := fl != flLess

/-- JLE is taken: the complement of Greater (R179). -/
def condLe (fl : Byte) : Bool := fl != flGreater

end Sys2Proof.Machine
end

