-- ==== Sys2Proof/Machine/Memory.lean ====
section
/-! DEFINITION. The 256-byte memory as a list of cells in one canonical form (10_state.md R33, 20_memory.md
R50). Addresses are natural numbers so that an address past 255 can be named and refused (R51). -/

namespace Sys2Proof.Machine

/-- The cells whose value is not `Memory.unlisted`, at strictly rising addresses. -/
abbrev Memory := List Host.Cell

/-- What an address not listed reads as: 0, the value `IMAGE` gives every cell the loader did not write
(70_reset_and_hazards.md R241). DESIGN CHOICE (log entry 7). -/
def Memory.unlisted : Byte := 0

/-- The byte at an address. -/
def Memory.read : Memory → Nat → Byte
  | [], _ => Memory.unlisted
  | (b, w) :: m, a => if a = b then w else Memory.read m a

/-- The cells `m` with `(a, v)` in front, or `m` itself when `v` is what an unlisted address reads as. -/
def Memory.cons (a : Nat) (v : Byte) (m : Memory) : Memory :=
  if v = Memory.unlisted then m else (a, v) :: m

/-- Store a byte, keeping the canonical form. -/
def Memory.write : Memory → Nat → Byte → Memory
  | [], a, v => Memory.cons a v []
  | (b, w) :: m, a, v =>
    if a < b then Memory.cons a v ((b, w) :: m)
    else if a = b then Memory.cons a v m
    else (b, w) :: Memory.write m a v

/-- The canonical form from address `lo` up: addresses strictly rising from `lo`, none over 255, no listed
cell that reads as an unlisted one. -/
def Memory.wfFrom (lo : Nat) : Memory → Bool
  | [] => true
  | (a, v) :: m =>
    decide (lo ≤ a) && decide (a ≤ 255) && decide (v ≠ Memory.unlisted) && Memory.wfFrom (a + 1) m

/-- The canonical form of memory. -/
def Memory.wf (m : Memory) : Bool := Memory.wfFrom 0 m

/-- The memory that holds the bytes from address `a` up, as far as address 255, and reads as unlisted
elsewhere (70_reset_and_hazards.md R241). -/
def Memory.ofBytes (a : Nat) : List Byte → Memory
  | [] => []
  | v :: vs => if a ≤ 255 then Memory.cons a v (Memory.ofBytes (a + 1) vs) else []

end Sys2Proof.Machine
end

