-- ==== Sys2Proof/Config.lean ====
section
/-! DEFINITION. The named parameters of the model (00_scope.md R7) and its one free value. `Config` holds those a
cycle reads; `ResetConfig` holds those only reset reads. Their default values stand in Machine/Params.lean and
Decode.lean. -/

namespace Sys2Proof

/-- `OPCODE_MAP`: the opcode byte of each of the 29 mnemonics (R7, 30_encoding.md R78, R83). Which maps are
admissible is `OpcodeMap.admissible` (Decode.lean). -/
structure OpcodeMap where
  hlt  : Byte
  ret  : Byte
  iret : Byte
  push : Byte
  pop  : Byte
  prn  : Byte
  call : Byte
  jmp  : Byte
  jeq  : Byte
  jne  : Byte
  jgt  : Byte
  jlt  : Byte
  jle  : Byte
  jge  : Byte
  inc  : Byte
  dec  : Byte
  not  : Byte
  ldi  : Byte
  add  : Byte
  sub  : Byte
  mul  : Byte
  div  : Byte
  mod  : Byte
  cmp  : Byte
  and  : Byte
  or   : Byte
  xor  : Byte
  shl  : Byte
  shr  : Byte
  deriving DecidableEq, Repr

/-- The parameters a cycle reads (R7). The machine never writes them (log entry 1). -/
structure Config where
  /-- `OPCODE_MAP`. -/
  opcodeMap : OpcodeMap
  /-- `VECTOR_BASE`, an integer 0 to 248, so that `VECTOR_BASE + 7` is an address (R7, 20_memory.md R51). -/
  vectorBase : Fin 249
  /-- `TICK_SETS_IE`: does a tick set IE (60_exceptions.md R215, R217). -/
  tickSetsIE : Bool
  deriving DecidableEq, Repr

/-- The free tick schedule: draw number `k` of the host's `tick`, of which nothing is known (60_exceptions.md R215:
drawn freshly at each cycle with no constraint). A claim about it holds for every schedule (log entry 9). -/
opaque Config.freeTick : Nat → Bool

/-- The parameters only reset reads (R7, 70_reset_and_hazards.md R240, R241). -/
structure ResetConfig where
  /-- `GPR_RESET`: the values of R0 to R6 at reset. -/
  gprReset : Vector Byte 7
  /-- `IE_RESET`. -/
  ieReset : Bool
  /-- `IMAGE`: the loader's bytes from address 0; every cell past the list holds 0 (R241). -/
  image : List Byte
  deriving DecidableEq, Repr

end Sys2Proof
end

