-- ==== Sys2Proof/Syntax.lean ====
section
/-! DEFINITION. The 29 instructions as syntax (30_encoding.md R71, R78). A register operand is kept as the
whole byte the encoding holds: 0 to 7 names a register, 8 to 255 is checked by the handler (R72). -/

namespace Sys2Proof

/-- The 29 mnemonics, in the order of the table of R78. -/
inductive Mnemonic where
  | hlt | ret | iret
  | push | pop | prn | call | jmp | jeq | jne | jgt | jlt | jle | jge | inc | dec | not
  | ldi
  | add | sub | mul | div | mod | cmp | and | or | xor | shl | shr
  deriving DecidableEq, Repr

/-- The four instruction formats of R71. -/
inductive Format where
  /-- opcode alone -/
  | f0
  /-- opcode, register -/
  | f1r
  /-- opcode, register, register -/
  | f2rr
  /-- opcode, register, immediate -/
  | f2ri
  deriving DecidableEq, Repr

/-- One instruction with its operand bytes; `ra` is the byte at PC+1, `rb` or `imm` the byte at PC+2 (R71). -/
inductive Instr where
  /-- HLT: halt the CPU (R180). -/
  | hlt
  /-- RET: return from a subroutine (R171). -/
  | ret
  /-- IRET: return from an interrupt handler (R190). -/
  | iret
  /-- PUSH: push a register's value (R162). -/
  | push (ra : Byte)
  /-- POP: pop the top of the stack into a register (R163). -/
  | pop (ra : Byte)
  /-- PRN: output the value of a register (R151). -/
  | prn (ra : Byte)
  /-- CALL: call the subroutine at the address in a register (R170). -/
  | call (ra : Byte)
  /-- JMP: jump to the address in a register (R172). -/
  | jmp (ra : Byte)
  /-- JEQ: jump if equal (R174). -/
  | jeq (ra : Byte)
  /-- JNE: jump if not equal (R175). -/
  | jne (ra : Byte)
  /-- JGT: jump if greater (R176). -/
  | jgt (ra : Byte)
  /-- JLT: jump if less (R177). -/
  | jlt (ra : Byte)
  /-- JLE: jump if less or equal (R179). -/
  | jle (ra : Byte)
  /-- JGE: jump if greater or equal (R178). -/
  | jge (ra : Byte)
  /-- INC: add one to a register (R126). -/
  | inc (ra : Byte)
  /-- DEC: subtract one from a register (R127). -/
  | dec (ra : Byte)
  /-- NOT: bitwise complement of a register (R128). -/
  | not (ra : Byte)
  /-- LDI: load an immediate byte into a register (R150). -/
  | ldi (ra imm : Byte)
  /-- ADD (R121). -/
  | add (ra rb : Byte)
  /-- SUB (R122). -/
  | sub (ra rb : Byte)
  /-- MUL (R123). -/
  | mul (ra rb : Byte)
  /-- DIV (R124). -/
  | div (ra rb : Byte)
  /-- MOD (R125). -/
  | mod (ra rb : Byte)
  /-- CMP: compare two registers and set FL (R134). -/
  | cmp (ra rb : Byte)
  /-- AND (R129). -/
  | and (ra rb : Byte)
  /-- OR (R130). -/
  | or (ra rb : Byte)
  /-- XOR (R131). -/
  | xor (ra rb : Byte)
  /-- SHL (R132). -/
  | shl (ra rb : Byte)
  /-- SHR (R133). -/
  | shr (ra rb : Byte)
  deriving DecidableEq, Repr

end Sys2Proof
end

