-- ==== Sys2Proof/WellFormed.lean ====
section
/-! DEFINITION. Well-formed instructions: every register operand names one of the eight register slots
(10_state.md R20, 30_encoding.md R72). An ill-formed instruction still decodes and runs: its handler raises
RegisterIndexFault (60_exceptions.md R206). -/

namespace Sys2Proof

/-- The register operands of an instruction, in the order the handler checks them (60_exceptions.md R207). -/
def Instr.registerOperands : Instr → List Byte
  | .hlt => [] | .ret => [] | .iret => []
  | .push a => [a] | .pop a => [a] | .prn a => [a] | .call a => [a] | .jmp a => [a]
  | .jeq a => [a] | .jne a => [a] | .jgt a => [a] | .jlt a => [a] | .jle a => [a] | .jge a => [a]
  | .inc a => [a] | .dec a => [a] | .not a => [a]
  | .ldi a _ => [a]
  | .add a b => [a, b] | .sub a b => [a, b] | .mul a b => [a, b] | .div a b => [a, b]
  | .mod a b => [a, b] | .cmp a b => [a, b] | .and a b => [a, b] | .or a b => [a, b]
  | .xor a b => [a, b] | .shl a b => [a, b] | .shr a b => [a, b]

/-- Every register operand is a register index, 0 to 7 (R72). -/
def Instr.wf (i : Instr) : Bool := i.registerOperands.all fun r => decide (r.toNat ≤ 7)

end Sys2Proof
end

