-- ==== Sys2Proof/Decode.lean ====
section
/-! DEFINITION. The encoding tables, the decoder and the encoder (30_encoding.md). The opcode map is an
argument throughout (R83); `OpcodeMap.default` is the map of R78. -/

namespace Sys2Proof

/-! ### The encoding tables -/

/-- The default `OPCODE_MAP`, the table of R78. PRESUMED: the spec takes the byte values from general
knowledge (log entry 2). -/
def OpcodeMap.default : OpcodeMap where
  hlt  := 0x01
  ret  := 0x11
  iret := 0x13
  push := 0x45
  pop  := 0x46
  prn  := 0x47
  call := 0x50
  jmp  := 0x54
  jeq  := 0x55
  jne  := 0x56
  jgt  := 0x57
  jlt  := 0x58
  jle  := 0x59
  jge  := 0x5A
  inc  := 0x65
  dec  := 0x66
  not  := 0x69
  ldi  := 0x82
  add  := 0xA0
  sub  := 0xA1
  mul  := 0xA2
  div  := 0xA3
  mod  := 0xA4
  cmp  := 0xA7
  and  := 0xA8
  or   := 0xAA
  xor  := 0xAB
  shl  := 0xAC
  shr  := 0xAD

/-- The 29 mnemonics in the order of R78. -/
def Mnemonic.all : List Mnemonic :=
  [.hlt, .ret, .iret, .push, .pop, .prn, .call, .jmp, .jeq, .jne, .jgt, .jlt, .jle, .jge] ++
  [.inc, .dec, .not, .ldi, .add, .sub, .mul, .div, .mod, .cmp, .and, .or, .xor, .shl, .shr]

/-- The opcode byte a map gives a mnemonic. -/
def OpcodeMap.byte (m : OpcodeMap) : Mnemonic → Byte
  | .hlt => m.hlt | .ret => m.ret | .iret => m.iret
  | .push => m.push | .pop => m.pop | .prn => m.prn | .call => m.call | .jmp => m.jmp
  | .jeq => m.jeq | .jne => m.jne | .jgt => m.jgt | .jlt => m.jlt | .jle => m.jle | .jge => m.jge
  | .inc => m.inc | .dec => m.dec | .not => m.not
  | .ldi => m.ldi
  | .add => m.add | .sub => m.sub | .mul => m.mul | .div => m.div | .mod => m.mod | .cmp => m.cmp
  | .and => m.and | .or => m.or | .xor => m.xor | .shl => m.shl | .shr => m.shr

/-- The format of each mnemonic (R78). -/
def Mnemonic.format : Mnemonic → Format
  | .hlt => .f0 | .ret => .f0 | .iret => .f0
  | .push => .f1r | .pop => .f1r | .prn => .f1r | .call => .f1r | .jmp => .f1r
  | .jeq => .f1r | .jne => .f1r | .jgt => .f1r | .jlt => .f1r | .jle => .f1r | .jge => .f1r
  | .inc => .f1r | .dec => .f1r | .not => .f1r
  | .ldi => .f2ri
  | .add => .f2rr | .sub => .f2rr | .mul => .f2rr | .div => .f2rr | .mod => .f2rr | .cmp => .f2rr
  | .and => .f2rr | .or => .f2rr | .xor => .f2rr | .shl => .f2rr | .shr => .f2rr

/-- How many operand bytes follow the opcode (R71). -/
def Format.operandCount : Format → Nat
  | .f0 => 0
  | .f1r => 1
  | .f2rr => 2
  | .f2ri => 2

/-- The control-transfer instructions: their handlers set PC themselves (R79). -/
def Mnemonic.isControlTransfer : Mnemonic → Bool
  | .call | .ret | .iret | .jmp | .jeq | .jne | .jgt | .jlt | .jge | .jle => true
  | .hlt | .push | .pop | .prn | .inc | .dec | .not | .ldi => false
  | .add | .sub | .mul | .div | .mod | .cmp | .and | .or | .xor | .shl | .shr => false

/-- `n = op[7:6]`, the operand count an opcode byte announces (R70). -/
def countField (op : Byte) : Nat := op.toNat / 64

/-- An admissible map: 29 distinct bytes, each byte's bits 7:6 the operand count of its format (R83). -/
def OpcodeMap.admissible (m : OpcodeMap) : Bool :=
  Mnemonic.all.all fun k =>
    decide (countField (m.byte k) = k.format.operandCount) &&
    Mnemonic.all.all fun k' => decide (m.byte k = m.byte k' → k = k')

/-! ### The decoder -/

/-- Why a byte sequence is no instruction (R81). -/
inductive DecodeError where
  /-- the opcode is not in the map, or its count field is 3 (R73, R80) -/
  | unknownOpcode (op : Byte)
  /-- byte `k` of the instruction (0 the opcode) lies past the end of the bytes given (R81) -/
  | truncated (k : Nat)
  deriving DecidableEq, Repr

/-- The mnemonic whose opcode is `op` (R74, R104). -/
def OpcodeMap.lookup (m : OpcodeMap) (op : Byte) : Option Mnemonic :=
  Mnemonic.all.find? fun k => m.byte k == op

/-- An instruction of format `F0` from its operand bytes. -/
def build0 (i : Instr) : List Byte → Option Instr
  | [] => some i
  | _ :: _ => none

/-- An instruction of format `F1R` from its operand bytes. -/
def build1 (i : Byte → Instr) : List Byte → Option Instr
  | [a] => some (i a)
  | _ => none

/-- An instruction of format `F2RR` or `F2RI` from its operand bytes. -/
def build2 (i : Byte → Byte → Instr) : List Byte → Option Instr
  | [a, b] => some (i a b)
  | _ => none

/-- The instruction a mnemonic makes of the fetched operand bytes (R105). `none` only when their number is
not the format's, which no admissible map allows (log entry 14). -/
def Mnemonic.build : Mnemonic → List Byte → Option Instr
  | .hlt => build0 .hlt
  | .ret => build0 .ret
  | .iret => build0 .iret
  | .push => build1 .push
  | .pop => build1 .pop
  | .prn => build1 .prn
  | .call => build1 .call
  | .jmp => build1 .jmp
  | .jeq => build1 .jeq
  | .jne => build1 .jne
  | .jgt => build1 .jgt
  | .jlt => build1 .jlt
  | .jle => build1 .jle
  | .jge => build1 .jge
  | .inc => build1 .inc
  | .dec => build1 .dec
  | .not => build1 .not
  | .ldi => build2 .ldi
  | .add => build2 .add
  | .sub => build2 .sub
  | .mul => build2 .mul
  | .div => build2 .div
  | .mod => build2 .mod
  | .cmp => build2 .cmp
  | .and => build2 .and
  | .or => build2 .or
  | .xor => build2 .xor
  | .shl => build2 .shl
  | .shr => build2 .shr

/-- Steps 3 and 4 of the cycle on the bytes at PC, in the cycle's order (R81, 40_dispatch.md R103, R104): the
count 3, then a missing operand byte, then the lookup. Answers the instruction and the bytes after it. -/
def decode (m : OpcodeMap) : List Byte → Except DecodeError (Instr × List Byte)
  | [] => .error (.truncated 0)
  | op :: rest =>
    if countField op = 3 then .error (.unknownOpcode op)
    else if rest.length < countField op then .error (.truncated (rest.length + 1))
    else
      match (m.lookup op).bind fun k => k.build (rest.take (countField op)) with
      | some i => .ok (i, rest.drop (countField op))
      | none => .error (.unknownOpcode op)

/-! ### The encoder -/

/-- The mnemonic of an instruction. -/
def Instr.mnemonic : Instr → Mnemonic
  | .hlt => .hlt | .ret => .ret | .iret => .iret
  | .push _ => .push | .pop _ => .pop | .prn _ => .prn | .call _ => .call | .jmp _ => .jmp
  | .jeq _ => .jeq | .jne _ => .jne | .jgt _ => .jgt | .jlt _ => .jlt | .jle _ => .jle | .jge _ => .jge
  | .inc _ => .inc | .dec _ => .dec | .not _ => .not
  | .ldi _ _ => .ldi
  | .add _ _ => .add | .sub _ _ => .sub | .mul _ _ => .mul | .div _ _ => .div | .mod _ _ => .mod
  | .cmp _ _ => .cmp | .and _ _ => .and | .or _ _ => .or | .xor _ _ => .xor | .shl _ _ => .shl
  | .shr _ _ => .shr

/-- The operand bytes of an instruction, in address order (R71). -/
def Instr.operands : Instr → List Byte
  | .hlt => [] | .ret => [] | .iret => []
  | .push a => [a] | .pop a => [a] | .prn a => [a] | .call a => [a] | .jmp a => [a]
  | .jeq a => [a] | .jne a => [a] | .jgt a => [a] | .jlt a => [a] | .jle a => [a] | .jge a => [a]
  | .inc a => [a] | .dec a => [a] | .not a => [a]
  | .ldi a v => [a, v]
  | .add a b => [a, b] | .sub a b => [a, b] | .mul a b => [a, b] | .div a b => [a, b]
  | .mod a b => [a, b] | .cmp a b => [a, b] | .and a b => [a, b] | .or a b => [a, b]
  | .xor a b => [a, b] | .shl a b => [a, b] | .shr a b => [a, b]

/-- The bytes of an instruction in ascending address order: opcode, then operands (R70, R71, 20_memory.md R54). -/
def encode (m : OpcodeMap) (i : Instr) : List Byte := m.byte i.mnemonic :: i.operands

/-- The length in bytes, `n + 1` (R70). -/
def Instr.length (i : Instr) : Nat := i.mnemonic.format.operandCount + 1

/-! ### The host's numbering of an instruction's bits -/

/-- The three bytes at ascending addresses of an instruction whose first `nbits` bits are those of `w`: bit 0
of `w` is bit 0 of the first byte, bits 15..8 are the second byte; bits from `nbits` up are 0. -/
def wordBytes (nbits w : Nat) : List Byte :=
  let v := w % 2 ^ nbits
  [BitVec.ofNat 8 v, BitVec.ofNat 8 (v / 256), BitVec.ofNat 8 (v / 65536)]

/-- The instruction the decoder reads, under the default map, from an instruction whose bits are `w`. -/
def decodeTableWord (nbits w : Nat) : Option Instr :=
  match decode OpcodeMap.default (wordBytes nbits w) with
  | .ok (i, _) => some i
  | .error _ => none

end Sys2Proof
end

