-- ==== Sys2Proof/Machine/Params.lean ====
section
/-! DEFINITION. The default values of the parameters (00_scope.md R7). -/

namespace Sys2Proof

/-- The defaults of R7 for the parameters a cycle reads (log entries 2, 3, 4). -/
def Config.default : Config where
  opcodeMap := OpcodeMap.default
  vectorBase := 0xF8
  tickSetsIE := true

/-- The defaults of R7 for the parameters reset reads: R0 to R6 are 0, IE is off, no byte is loaded
(log entries 5, 6, 7). -/
def ResetConfig.default : ResetConfig where
  gprReset := #v[0, 0, 0, 0, 0, 0, 0]
  ieReset := false
  image := []

end Sys2Proof
end

