-- ==== Sys2Proof/Machine/State.lean ====
section
/-! DEFINITION. The state of the CORE (10_state.md R34), why a step can stop, and reset
(70_reset_and_hazards.md R240). -/

namespace Sys2Proof.Machine

/-- Why the CORE halted gracefully (10_state.md R31). -/
inductive HaltCause where
  /-- the HLT instruction (44_control.md R180) -/
  | hlt
  /-- DIV or MOD by zero, the source's ArithmeticFault (60_exceptions.md R204) -/
  | divByZero
  deriving DecidableEq, Repr

/-- The faults of the CORE with the information each records (10_state.md R31, 60_exceptions.md R200). They are
values of STATUS, reached by a next state, not outcomes of `step`. -/
inductive CoreFault where
  /-- the opcode byte and the PC it was fetched from (60_exceptions.md R201) -/
  | unknownOpcodeFault (opcode : Byte) (pc : Nat)
  /-- the address outside 0 to 255 (60_exceptions.md R205) -/
  | addressError (address : Nat)
  /-- the register operand byte over 7 (60_exceptions.md R206) -/
  | registerIndexFault (index : Byte)
  deriving DecidableEq, Repr

/-- STATUS (10_state.md R31). `halted` and `faulted` are terminal. -/
inductive Status where
  | running
  | halted (cause : HaltCause)
  | faulted (fault : CoreFault)
  deriving DecidableEq, Repr

/-- The kinds of diagnostic (10_state.md R31). -/
inductive DiagKind where
  | divByZero
  | unknownOpcode
  deriving DecidableEq, Repr

/-- One event of the output stream (10_state.md R31). -/
inductive Event where
  /-- a byte emitted by PRN -/
  | out (v : Byte)
  /-- a diagnostic -/
  | diag (kind : DiagKind)
  deriving DecidableEq, Repr

/-- The ticks after those listed one by one (log entry 9). -/
inductive TickTail where
  /-- the same tick at every cycle -/
  | always (tick : Bool)
  /-- free draws, the next one number `k` of `Config.freeTick`: any schedule at all (60_exceptions.md R215) -/
  | free (k : Nat)
  deriving DecidableEq, Repr

/-- The host's `tick` input for the coming cycles (60_exceptions.md R215): the values of the next cycles, then
what follows them. The model's own field (log entry 9). -/
structure TickSource where
  /-- the ticks of the next cycles, the next one first -/
  upcoming : List Bool
  /-- the ticks of the cycles after those -/
  later : TickTail
  deriving DecidableEq, Repr

/-- The state of the CORE (10_state.md R34), with two fields of the model's own: the constant parameters `cfg`
(log entry 1) and the host's tick inputs `ticks` (log entry 9). -/
structure State where
  /-- the register file `x`: R0 to R4, R5 = IM, R6 = IS, R7 = SP (R20, R22) -/
  regs : Vector Byte 8
  /-- the program counter, 0 to 258, never wrapped (R28) -/
  pc : Nat
  /-- the flags byte (R29) -/
  fl : Byte
  /-- the interrupt-enable bit (R30) -/
  ie : Bool
  /-- the run status (R31) -/
  status : Status
  /-- memory (R33) -/
  mem : Memory
  /-- the output stream, oldest event first (R31) -/
  out : List Event
  /-- the parameters a cycle reads (00_scope.md R7) -/
  cfg : Config
  /-- the host's tick inputs (60_exceptions.md R215) -/
  ticks : TickSource
  deriving DecidableEq, Repr

/-- Why `step` answers no next state. -/
inductive Fault where
  /-- `step` was asked for a cycle when STATUS is Halted or Faulted: no cycle runs from there (40_dispatch.md
  R107). Raised by `step` alone. Safe: the machine has no next state either (log entry 10). -/
  | notRunning (status : Status)
  deriving DecidableEq, Repr

/-- Why an instruction is rejected. -/
inductive Refusal where
  /-- Raised by an arm of `exec` that has no meaning yet. Safe: the model stops. No arm raises it. -/
  | notModelled (mnemonic : String)
  deriving DecidableEq, Repr

/-- The machine right after reset, for any values of the parameters and any tick inputs
(70_reset_and_hazards.md R240, R241). -/
def State.resetWith (r : ResetConfig) (c : Config) (t : TickSource) : State where
  regs := r.gprReset.push 0xF4
  pc := 0
  fl := 0
  ie := r.ieReset
  status := .running
  mem := Memory.ofBytes 0 r.image
  out := []
  cfg := c
  ticks := t

/-- The machine right after reset, every parameter at the default of 00_scope.md R7 and no tick ever
(log entries 5, 6, 7, 9). -/
def State.reset : State :=
  State.resetWith ResetConfig.default Config.default { upcoming := [], later := .always false }

end Sys2Proof.Machine
end

