-- ==== Sys2Proof/Machine/Ops.lean ====
section
/-! DEFINITION. The named operations over registers, memory, the stack, STATUS and the output stream
(00_scope.md R9), and taking and leaving an interrupt (60_exceptions.md R211, 45_iret.md R190). -/

namespace Sys2Proof.Machine

/-- What an instruction's meaning answers. -/
abbrev Result := Host.Outcome State Fault Refusal

/-! ### Registers -/

/-- `x[i]` (00_scope.md R9). -/
def State.reg (s : State) (i : Fin 8) : Byte := s.regs[i]

/-- `x[i] <- v` (10_state.md R21). -/
def State.setReg (s : State) (i : Fin 8) (v : Byte) : State := { s with regs := s.regs.set i v }

/-- The slot of the interrupt mask (10_state.md R22). -/
abbrev regIM : Fin 8 := 5

/-- The slot of the interrupt status (10_state.md R22). -/
abbrev regIS : Fin 8 := 6

/-- The slot of the stack pointer (10_state.md R22). -/
abbrev regSP : Fin 8 := 7

/-- `SP` (10_state.md R27). -/
def State.sp (s : State) : Byte := s.reg regSP

/-! ### STATUS, faults and events -/

/-- `emit e` (00_scope.md R9). -/
def emit (e : Event) (s : State) : State := { s with out := s.out ++ [e] }

/-- `halt(c)` (00_scope.md R9). -/
def halt (c : HaltCause) (s : State) : State := { s with status := .halted c }

/-- The events a fault emits: a diagnostic for UnknownOpcodeFault, none for the others (60_exceptions.md R202). -/
def CoreFault.events : CoreFault → List Event
  | .unknownOpcodeFault _ _ => [.diag .unknownOpcode]
  | .addressError _ => []
  | .registerIndexFault _ => []

/-- `raise E(info)`: STATUS becomes Faulted and nothing else of the faulting step happens
(60_exceptions.md R202). -/
def raise (f : CoreFault) (s : State) : State :=
  { s with status := .faulted f, out := s.out ++ f.events }

/-- The code of STATUS on the CORE's status port (60_exceptions.md R200, 70_reset_and_hazards.md R250). -/
def Status.code : Status → Nat
  | .running => 0
  | .halted .hlt => 1
  | .halted .divByZero => 2
  | .faulted (.unknownOpcodeFault _ _) => 3
  | .faulted (.addressError _) => 4
  | .faulted (.registerIndexFault _) => 5

/-! ### The program counter -/

/-- Step 6 of the cycle after an instruction of `n` bytes that is no control transfer (40_dispatch.md R106). -/
def advance (n : Nat) (s : State) : State := { s with pc := s.pc + n }

/-- `PC <- t` (00_scope.md R9). -/
def setPc (t : Nat) (s : State) : State := { s with pc := t }

/-! ### Memory -/

/-- `MemRead(a, 1)` (20_memory.md R51). -/
def memRead (a : Nat) (s : State) : Except CoreFault Byte :=
  if a ≤ 255 then .ok (s.mem.read a) else .error (.addressError a)

/-- `MemWrite(a, 1, v)` (20_memory.md R51). -/
def memWrite (a : Nat) (v : Byte) (s : State) : Except CoreFault State :=
  if a ≤ 255 then .ok { s with mem := s.mem.write a v } else .error (.addressError a)

/-- `MemRead` at a byte address, which never raises (20_memory.md R51). -/
def loadByte (a : Byte) (s : State) : Byte := s.mem.read a.toNat

/-- `MemWrite` at a byte address, which never raises (20_memory.md R51). -/
def storeByte (a v : Byte) (s : State) : State := { s with mem := s.mem.write a.toNat v }

/-! ### The stack -/

/-- The address a Push stores to: SP after its decrement (43_stack.md R160). -/
def pushAddr (s : State) : Byte := s.sp - 1

/-- `Push(v)`: decrement SP, then store at the new SP (43_stack.md R160). -/
def push (v : Byte) (s : State) : State := storeByte (pushAddr s) v (s.setReg regSP (pushAddr s))

/-- The byte `Pop()` returns (43_stack.md R161). -/
def popValue (s : State) : Byte := loadByte s.sp s

/-- The state `Pop()` leaves: SP incremented, memory untouched (43_stack.md R161). -/
def popState (s : State) : State := s.setReg regSP (s.sp + 1)

/-- `x[i] <- Pop()`: the register is written after Pop's increment (43_stack.md R163). -/
def popReg (i : Fin 8) (s : State) : State := (popState s).setReg i (popValue s)

/-! ### Taking an interrupt and returning from one -/

/-- The cell of the vector table for line `i`; it is at most 255 (20_memory.md R51, R56). -/
def vectorAddr (c : Config) (i : Fin 8) : Byte := BitVec.ofNat 8 (c.vectorBase.val + i.val)

/-- `IS & ~(1 << i)` (60_exceptions.md R211). -/
def clearLine (i : Fin 8) (is : Byte) : Byte := is &&& ~~~(1#8 <<< i.val)

/-- The registers an entry pushes, in push order (60_exceptions.md R211). -/
def savedRegs : List (Fin 8) := [0, 1, 2, 3, 4, 5, 6]

/-- Push the listed registers, in order, each read when it is pushed. -/
def pushRegs (rs : List (Fin 8)) (s : State) : State := rs.foldl (fun t r => push (t.reg r) t) s

/-- The first writes of an entry for line `i`: IE is cleared and the serviced bit of IS (60_exceptions.md R211). -/
def entryGate (i : Fin 8) (s : State) : State :=
  { s with ie := false }.setReg regIS (clearLine i (s.reg regIS))

/-- The pushes of an entry: PC, FL, R0 to R6 (60_exceptions.md R211). -/
def pushFrame (s : State) : State := pushRegs savedRegs (push s.fl (push (BitVec.ofNat 8 s.pc) s))

/-- `PC <- MemRead(VECTOR_BASE + i, 1)` (60_exceptions.md R211). -/
def vectorTo (i : Fin 8) (s : State) : State := setPc (loadByte (vectorAddr s.cfg i) s).toNat s

/-- The writes of an entry for line `i` when PC fits a byte (60_exceptions.md R211). The handler's address is
read after the pushes, which may have overwritten its cell. -/
def entryState (i : Fin 8) (s : State) : State := vectorTo i (pushFrame (entryGate i s))

/-- Interrupt entry for line `i`: the check of PC comes before any write (60_exceptions.md R211). -/
def enterInterrupt (i : Fin 8) (s : State) : Except CoreFault State :=
  if s.pc > 255 then .error (.addressError s.pc) else .ok (entryState i s)

/-- The registers IRET pops, in pop order (45_iret.md R190). -/
def restoredRegs : List (Fin 8) := [6, 5, 4, 3, 2, 1, 0]

/-- Pop into the listed registers, in order. -/
def popRegs (rs : List (Fin 8)) (s : State) : State := rs.foldl (fun t r => popReg r t) s

/-- Return from an interrupt: pop R6 to R0, FL and PC, and set IE (45_iret.md R190). -/
def returnFromInterrupt (s : State) : State :=
  let s1 := popRegs restoredRegs s
  let s2 := { popState s1 with fl := popValue s1 }
  let s3 := setPc (popValue s2).toNat (popState s2)
  { s3 with ie := true }

end Sys2Proof.Machine
end

