-- ==== Sys2Proof/Machine/Operands.lean ====
section
/-! DEFINITION. The operand forms (00_scope.md R10, 30_encoding.md R72): every register operand is checked,
in order, before the handler writes anything. -/

namespace Sys2Proof.Machine

/-- `CheckReg(r)` (00_scope.md R10): the register slot a byte names, or RegisterIndexFault. -/
def checkReg (r : Byte) : Except CoreFault (Fin 8) :=
  if h : r.toNat ≤ 7 then .ok ⟨r.toNat, Nat.lt_succ_of_le h⟩ else .error (.registerIndexFault r)

/-- One register operand: the handler `k` of the slot, or the fault of `CheckReg` (00_scope.md R10). -/
def withReg (a : Byte) (s : State) (k : Fin 8 → Result) : Result :=
  match checkReg a with
  | .ok x => k x
  | .error f => .next (raise f s)

/-- Two register operands, `a` checked before `b` (60_exceptions.md R207). -/
def withRegs (a b : Byte) (s : State) (k : Fin 8 → Fin 8 → Result) : Result :=
  withReg a s fun x => withReg b s fun y => k x y

end Sys2Proof.Machine
end

