-- ==== Sys2Proof/Machine/Alu.lean ====
section
/-! DEFINITION. The ALU instructions (41_alu.md). Each result is computed exactly on integers and then
reduced modulo 256 (R135). -/

namespace Sys2Proof.Machine

/-! ### The ALU's functions -/

/-- R121. -/
def aluAdd (x y : Byte) : Byte := wrap8 (x.toNat + y.toNat)

/-- R122. -/
def aluSub (x y : Byte) : Byte := wrap8 (x.toNat - y.toNat)

/-- R123. -/
def aluMul (x y : Byte) : Byte := wrap8 (x.toNat * y.toNat)

/-- R124, for a divisor that is not 0. -/
def aluDiv (x y : Byte) : Byte := wrap8 (x.toNat / y.toNat : Nat)

/-- R125, for a divisor that is not 0: `x - y * floor(x / y)`. -/
def aluMod (x y : Byte) : Byte := wrap8 (x.toNat - y.toNat * (x.toNat / y.toNat : Nat))

/-- R126. -/
def aluInc (x : Byte) : Byte := wrap8 (x.toNat + 1)

/-- R127. -/
def aluDec (x : Byte) : Byte := wrap8 (x.toNat - 1)

/-- R128: `255 - x`. -/
def aluNot (x : Byte) : Byte := wrap8 (255 - x.toNat)

/-- R129. -/
def aluAnd (x y : Byte) : Byte := x &&& y

/-- R130. -/
def aluOr (x y : Byte) : Byte := x ||| y

/-- R131. -/
def aluXor (x y : Byte) : Byte := x ^^^ y

/-- R132: `wrap8(x << y)`, the count the whole byte `y`. -/
def aluShl (x y : Byte) : Byte := wrap8 (x.toNat <<< y.toNat : Nat)

/-- R133: `x >> y`, the count the whole byte `y`. -/
def aluShr (x y : Byte) : Byte := wrap8 (x.toNat >>> y.toNat : Nat)

/-! ### The shared shapes -/

/-- A two-register operation: both operands are read, the result goes to the first, PC advances by 3 (R120). -/
def binaryAlu (f : Byte → Byte → Byte) (ra rb : Byte) (s : State) : Result :=
  withRegs ra rb s fun x y => .next (advance 3 (s.setReg x (f (s.reg x) (s.reg y))))

/-- A one-register operation: the result goes to the operand, PC advances by 2 (R120). -/
def unaryAlu (f : Byte → Byte) (ra : Byte) (s : State) : Result :=
  withReg ra s fun x => .next (advance 2 (s.setReg x (f (s.reg x))))

/-- DIV and MOD: a zero divisor emits Diag(DivByZero) and halts, writing no register; PC advances by 3 in
both cases (R124, R125, 60_exceptions.md R204). -/
def divideAlu (f : Byte → Byte → Byte) (ra rb : Byte) (s : State) : Result :=
  withRegs ra rb s fun x y =>
    if s.reg y = 0 then .next (advance 3 (halt .divByZero (emit (.diag .divByZero) s)))
    else .next (advance 3 (s.setReg x (f (s.reg x) (s.reg y))))

/-! ### The meanings -/

/-- ADD (R121). -/
def execAdd (ra rb : Byte) (s : State) : Result := binaryAlu aluAdd ra rb s

/-- SUB (R122). -/
def execSub (ra rb : Byte) (s : State) : Result := binaryAlu aluSub ra rb s

/-- MUL (R123). -/
def execMul (ra rb : Byte) (s : State) : Result := binaryAlu aluMul ra rb s

/-- DIV (R124). -/
def execDiv (ra rb : Byte) (s : State) : Result := divideAlu aluDiv ra rb s

/-- MOD (R125). -/
def execMod (ra rb : Byte) (s : State) : Result := divideAlu aluMod ra rb s

/-- INC (R126). -/
def execInc (ra : Byte) (s : State) : Result := unaryAlu aluInc ra s

/-- DEC (R127). -/
def execDec (ra : Byte) (s : State) : Result := unaryAlu aluDec ra s

/-- NOT (R128). -/
def execNot (ra : Byte) (s : State) : Result := unaryAlu aluNot ra s

/-- AND (R129). -/
def execAnd (ra rb : Byte) (s : State) : Result := binaryAlu aluAnd ra rb s

/-- OR (R130). -/
def execOr (ra rb : Byte) (s : State) : Result := binaryAlu aluOr ra rb s

/-- XOR (R131). -/
def execXor (ra rb : Byte) (s : State) : Result := binaryAlu aluXor ra rb s

/-- SHL (R132). -/
def execShl (ra rb : Byte) (s : State) : Result := binaryAlu aluShl ra rb s

/-- SHR (R133). -/
def execShr (ra rb : Byte) (s : State) : Result := binaryAlu aluShr ra rb s

/-- CMP: writes FL and no register (R134). -/
def execCmp (ra rb : Byte) (s : State) : Result :=
  withRegs ra rb s fun x y => .next (advance 3 { s with fl := compareFlags (s.reg x) (s.reg y) })

end Sys2Proof.Machine
end

