-- ==== Sys2Proof/Machine/Control.lean ====
section
/-! DEFINITION. Control transfer and HLT (44_control.md). Every control-transfer handler writes PC itself. -/

namespace Sys2Proof.Machine

/-- CALL: the target is read before the push; a return address over 255 raises AddressError before any write
(R170). -/
def execCall (ra : Byte) (s : State) : Result :=
  withReg ra s fun x =>
    if s.pc + 2 > 255 then .next (raise (.addressError (s.pc + 2)) s)
    else .next (setPc (s.reg x).toNat (push (BitVec.ofNat 8 (s.pc + 2)) s))

/-- RET: `PC <- Pop()` (R171). -/
def execRet (s : State) : Result := .next (setPc (popValue s).toNat (popState s))

/-- JMP: `PC <- x[a]` (R172). -/
def execJmp (ra : Byte) (s : State) : Result :=
  withReg ra s fun x => .next (setPc (s.reg x).toNat s)

/-- The shared form of the six conditional jumps; one not taken goes to PC + 2 (R173). -/
def jumpIf (taken : Byte → Bool) (ra : Byte) (s : State) : Result :=
  withReg ra s fun x => .next (setPc (if taken s.fl then (s.reg x).toNat else s.pc + 2) s)

/-- JEQ (R174). -/
def execJeq (ra : Byte) (s : State) : Result := jumpIf condEq ra s

/-- JNE (R175). -/
def execJne (ra : Byte) (s : State) : Result := jumpIf condNe ra s

/-- JGT (R176). -/
def execJgt (ra : Byte) (s : State) : Result := jumpIf condGt ra s

/-- JLT (R177). -/
def execJlt (ra : Byte) (s : State) : Result := jumpIf condLt ra s

/-- JGE (R178). -/
def execJge (ra : Byte) (s : State) : Result := jumpIf condGe ra s

/-- JLE (R179). -/
def execJle (ra : Byte) (s : State) : Result := jumpIf condLe ra s

/-- HLT: `halt(HLT)`; PC + 1 (R180). -/
def execHlt (s : State) : Result := .next (advance 1 (halt .hlt s))

end Sys2Proof.Machine
end

