-- ==== Sys2Proof/Machine/DataIo.lean ====
section
/-! DEFINITION. Load-immediate and output (42_data_io.md). -/

namespace Sys2Proof.Machine

/-- LDI: `x[a] <- b`; PC + 3 (R150). -/
def execLdi (ra imm : Byte) (s : State) : Result :=
  withReg ra s fun x => .next (advance 3 (s.setReg x imm))

/-- PRN: `emit Out(x[a])`; PC + 2 (R151). -/
def execPrn (ra : Byte) (s : State) : Result :=
  withReg ra s fun x => .next (advance 2 (emit (.out (s.reg x)) s))

end Sys2Proof.Machine
end

