-- ==== Sys2Proof/Machine/Interrupt.lean ====
section
/-! DEFINITION. Steps 1 and 2 of the cycle, the timer and the interrupt check (60_exceptions.md R210, R215),
and IRET (45_iret.md R190). -/

namespace Sys2Proof.Machine

/-- IRET (45_iret.md R190). -/
def execIret (s : State) : Result := .next (returnFromInterrupt s)

/-- The next tick of a tail. -/
def TickTail.now : TickTail → Bool
  | .always b => b
  | .free k => Config.freeTick k

/-- The tail after one tick: a free one draws the next number. -/
def TickTail.rest : TickTail → TickTail
  | .always b => .always b
  | .free k => .free (k + 1)

/-- The tick of the next cycle. -/
def TickSource.now : TickSource → Bool
  | ⟨b :: _, _⟩ => b
  | ⟨[], l⟩ => l.now

/-- The tick inputs left after one cycle. -/
def TickSource.rest : TickSource → TickSource
  | ⟨_ :: bs, l⟩ => ⟨bs, l⟩
  | ⟨[], l⟩ => ⟨[], l.rest⟩

/-- Step 1 with a given tick: it sets IS bit 0, and IE when TICK_SETS_IE holds (R215, 40_dispatch.md R100). -/
def timerTick (tick : Bool) (s : State) : State :=
  if tick then { s.setReg regIS (s.reg regIS ||| 1) with ie := s.ie || s.cfg.tickSetsIE } else s

/-- The state after step 1 of the cycle: the tick is drawn and applied. -/
def afterTimer (s : State) : State := timerTick s.ticks.now { s with ticks := s.ticks.rest }

/-- The eight lines in ascending order. -/
def lines : List (Fin 8) := [0, 1, 2, 3, 4, 5, 6, 7]

/-- The least line whose bit is set, if any (R210). -/
def lowestLine (masked : Byte) : Option (Fin 8) := lines.find? fun i => masked.getLsbD i.val

/-- `InterruptCheck()` (R210). -/
def interruptCheck (s : State) : Except CoreFault State :=
  match lowestLine (s.reg regIM &&& s.reg regIS) with
  | none => .ok s
  | some i => enterInterrupt i s

/-- Step 2 of the cycle: the check runs only when IE = 1 (40_dispatch.md R100, R101). -/
def interruptStep (s : State) : Except CoreFault State := if s.ie then interruptCheck s else .ok s

/-- Steps 1 and 2 of the cycle: the state step 3 fetches in, or the fault of the entry. -/
def beforeFetch (s : State) : Except CoreFault State := interruptStep (afterTimer s)

end Sys2Proof.Machine
end

