-- ==== Sys2Proof/Machine/Stack.lean ====
section
/-! DEFINITION. The stack instructions (43_stack.md). -/

namespace Sys2Proof.Machine

/-- PUSH: the register is read before SP is decremented; PC + 2 (R162). -/
def execPush (ra : Byte) (s : State) : Result :=
  withReg ra s fun x => .next (advance 2 (push (s.reg x) s))

/-- POP: the register is written after SP is incremented; PC + 2 (R163). -/
def execPop (ra : Byte) (s : State) : Result :=
  withReg ra s fun x => .next (advance 2 (popReg x s))

end Sys2Proof.Machine
end

