-- ==== Sys2Proof/Machine/Fetch.lean ====
section
/-! DEFINITION. Steps 3 and 4 of the cycle (40_dispatch.md R102 to R104), and laying an instruction's bytes
down in memory. -/

namespace Sys2Proof.Machine

/-- The bytes at `a`, `a + 1`, ..., at most `n` of them, as far as MemRead answers (20_memory.md R51). -/
def fetchWindow (a : Nat) : Nat → State → List Byte
  | 0, _ => []
  | n + 1, s =>
    match memRead a s with
    | .ok v => v :: fetchWindow (a + 1) n s
    | .error _ => []

/-- The bytes at PC that an instruction can hold, at most three (30_encoding.md R70). Reading them all before
the decode is not observable (20_memory.md R52; log entry 12). -/
def State.window (s : State) : List Byte := fetchWindow s.pc 3 s

/-- The fault a decoding error is in the machine: a missing byte `k` is the access at PC + `k`
(40_dispatch.md R102, R103, R104). -/
def decodeFault (pc : Nat) : DecodeError → CoreFault
  | .unknownOpcode op => .unknownOpcodeFault op pc
  | .truncated k => .addressError (pc + k)

/-- Steps 3 and 4: the instruction at PC, or the fault (40_dispatch.md R102 to R104). -/
def fetch (s : State) : Except CoreFault Instr :=
  match decode s.cfg.opcodeMap s.window with
  | .ok (i, _) => .ok i
  | .error e => .error (decodeFault s.pc e)

/-- Store bytes from address `a` up, stopping at the first address past 255. -/
def placeBytes (a : Nat) : List Byte → State → State
  | [], s => s
  | v :: vs, s =>
    match memWrite a v s with
    | .ok t => placeBytes (a + 1) vs t
    | .error _ => s

end Sys2Proof.Machine
end

