-- ==== Sys2Proof/Machine/Cycle.lean ====
section
/-! DEFINITION. The fetch-decode-execute cycle (40_dispatch.md R100). -/

namespace Sys2Proof.Machine

/-- One cycle, taken when STATUS is Running (40_dispatch.md R100). A fault keeps the effects of the steps
before it (R108). -/
def cycle (s : State) : Result :=
  match beforeFetch s with
  | .error f => .next (raise f (afterTimer s))
  | .ok t =>
    match fetch t with
    | .error f => .next (raise f t)
    | .ok i => exec i t

/-- The address at which the next cycle fetches: PC after steps 1 and 2. -/
def fetchAddr (s : State) : Nat :=
  match beforeFetch s with
  | .ok t => t.pc
  | .error _ => s.pc

/-- An instruction's bytes stored where the next cycle fetches (log entries 8, 13). -/
def placeFetchWord (s : State) (nbits w : Nat) : State := placeBytes (fetchAddr s) (wordBytes nbits w) s

end Sys2Proof.Machine
end

