-- ==== Sys2Proof/Machine/Step.lean ====
section
/-! DEFINITION. One step of the machine: a cycle when STATUS is Running, a named stop otherwise
(40_dispatch.md R107). -/

namespace Sys2Proof.Machine

/-- One cycle of a running CORE; no cycle is taken from a terminal STATUS (40_dispatch.md R100, R107). -/
def step (s : State) : Host.Outcome State Fault Refusal :=
  match s.status with
  | .running => cycle s
  | .halted c => .fault (.notRunning (.halted c))
  | .faulted f => .fault (.notRunning (.faulted f))

/-- `s` with an instruction stored where `step` fetches next: the three bytes of `wordBytes nbits w` (Decode.lean)
at PC as it is after steps 1 and 2 of the next cycle (log entries 8, 13). -/
def State.withFetchWord (s : State) (nbits w : Nat) : State := placeFetchWord s nbits w

end Sys2Proof.Machine
end

