-- ==== Sys2Proof/Safety.lean ====
section
/-! DEFINITION. The terms claims are stated in: what an instruction may write, what it leaves unchanged, the
invariant of the state, and safe runs. -/

namespace Sys2Proof.Machine

/-! ### Frames -/

/-- The register slot an operand byte names, if it names one. -/
def slotOf (r : Byte) : List (Fin 8) :=
  match checkReg r with
  | .ok x => [x]
  | .error _ => []

/-- The registers an instruction may write: its destination, and SP where it pushes or pops (10_state.md R22). -/
def writtenRegs : Instr → List (Fin 8)
  | .hlt => [] | .prn _ => [] | .jmp _ => [] | .cmp _ _ => []
  | .jeq _ => [] | .jne _ => [] | .jgt _ => [] | .jlt _ => [] | .jle _ => [] | .jge _ => []
  | .ret => [regSP] | .push _ => [regSP] | .call _ => [regSP]
  | .pop a => regSP :: slotOf a
  | .iret => regSP :: restoredRegs
  | .inc a => slotOf a | .dec a => slotOf a | .not a => slotOf a | .ldi a _ => slotOf a
  | .add a _ => slotOf a | .sub a _ => slotOf a | .mul a _ => slotOf a | .div a _ => slotOf a
  | .mod a _ => slotOf a | .and a _ => slotOf a | .or a _ => slotOf a | .xor a _ => slotOf a
  | .shl a _ => slotOf a | .shr a _ => slotOf a

/-- Every register not listed holds what it held. -/
def RegsSameExcept (rs : List (Fin 8)) (s t : State) : Prop := ∀ r, r ∉ rs → t.reg r = s.reg r

/-- Every byte of memory reads as before. -/
def MemSame (s t : State) : Prop := ∀ a, t.mem.read a = s.mem.read a

/-- Every byte of memory but the one at `b` reads as before. -/
def MemSameExcept (b : Byte) (s t : State) : Prop := ∀ a, a ≠ b.toNat → t.mem.read a = s.mem.read a

/-- IE, the parameters and the host's remaining ticks are as before. -/
def GateSame (s t : State) : Prop := t.ie = s.ie ∧ t.cfg = s.cfg ∧ t.ticks = s.ticks

/-- STATUS and the output stream are as before. -/
def PortsSame (s t : State) : Prop := t.status = s.status ∧ t.out = s.out

/-- Everything but the registers listed and PC is as before. -/
def OnlyRegs (rs : List (Fin 8)) (s t : State) : Prop :=
  RegsSameExcept rs s t ∧ t.fl = s.fl ∧ MemSame s t ∧ GateSame s t ∧ PortsSame s t

/-! ### Forms -/

/-- The operand byte that names a register slot (30_encoding.md R72). -/
def regByte (x : Fin 8) : Byte := BitVec.ofNat 8 x.val

/-- The instruction is encoded in format F0 under the opcode of `k` (30_encoding.md R71). -/
def EncodedF0 (i : Instr) (k : Mnemonic) : Prop := ∀ m : OpcodeMap, encode m i = [m.byte k]

/-- The instruction is encoded in format F1R under the opcode of `k` (30_encoding.md R71). -/
def EncodedF1 (i : Byte → Instr) (k : Mnemonic) : Prop := ∀ (m : OpcodeMap) a, encode m (i a) = [m.byte k, a]

/-- The instruction is encoded in format F2RR or F2RI under the opcode of `k` (30_encoding.md R71). -/
def EncodedF2 (i : Byte → Byte → Instr) (k : Mnemonic) : Prop :=
  ∀ (m : OpcodeMap) a b, encode m (i a b) = [m.byte k, a, b]

/-- A register operand over 7 raises RegisterIndexFault, and nothing else changes (60_exceptions.md R206). -/
def IndexFault1 (i : Byte → Instr) : Prop :=
  ∀ a s, 7 < a.toNat → exec (i a) s = .next { s with status := .faulted (.registerIndexFault a) }

/-- The first of two register operands that is over 7 raises RegisterIndexFault, and nothing else changes
(60_exceptions.md R206, R207). -/
def IndexFault2 (i : Byte → Byte → Instr) : Prop :=
  ∀ a b s,
    (7 < a.toNat → exec (i a b) s = .next { s with status := .faulted (.registerIndexFault a) }) ∧
    (a.toNat ≤ 7 → 7 < b.toNat → exec (i a b) s = .next { s with status := .faulted (.registerIndexFault b) })

/-- A two-register operation: it completes for every pair of registers, writes `g` of the two values to the first
register, and changes PC (by 3) and nothing else. -/
def BinaryResult (i : Byte → Byte → Instr) (g : Byte → Byte → Byte) : Prop :=
  ∀ (x y : Fin 8) (s : State), ∃ t, exec (i (regByte x) (regByte y)) s = .next t ∧
    t.reg x = g (s.reg x) (s.reg y) ∧ t.pc = s.pc + 3 ∧ OnlyRegs [x] s t

/-- A one-register operation: it completes for every register, writes `g` of its value back, and changes PC (by 2)
and nothing else. -/
def UnaryResult (i : Byte → Instr) (g : Byte → Byte) : Prop :=
  ∀ (x : Fin 8) (s : State), ∃ t, exec (i (regByte x)) s = .next t ∧
    t.reg x = g (s.reg x) ∧ t.pc = s.pc + 2 ∧ OnlyRegs [x] s t

/-- A conditional jump: it completes for every register and FL, goes to the register's value when `c` holds of FL
and to PC + 2 otherwise, and changes nothing but PC. -/
def JumpResult (i : Byte → Instr) (c : Byte → Prop) : Prop :=
  ∀ (x : Fin 8) (s : State), ∃ t, exec (i (regByte x)) s = .next t ∧
    (c s.fl → t.pc = (s.reg x).toNat) ∧ (¬ c s.fl → t.pc = s.pc + 2) ∧ OnlyRegs [] s t

/-! ### Sequences on the stack -/

/-- Push the values of a list, the first one first (43_stack.md R164). -/
def pushAll (vs : List Byte) (s : State) : State := vs.foldl (fun t v => push v t) s

/-- The values of `n` pops, the first one first, and the state they leave (43_stack.md R164). -/
def popAll : Nat → State → List Byte × State
  | 0, s => ([], s)
  | n + 1, s => let (vs, t) := popAll n (popState s); (popValue s :: vs, t)

/-! ### The invariant -/

/-- What STATUS records is true of the state it was recorded in (60_exceptions.md R200, R202): a fault's PC is
that of the faulting opcode, an AddressError's address lies past 255 and within two bytes of PC, a
RegisterIndexFault's index is an operand byte over 7, and the last event is the diagnostic the code calls for. The
HLT clause reads PC as the spec's decision D13 leaves it (44_control.md R180); the clauses of the faults rest on its
decisions D8 to D11 (log entry 15). -/
def StatusInfo (s : State) : Prop :=
  match s.status with
  | .running => True
  | .halted .hlt => 1 ≤ s.pc ∧ s.mem.read (s.pc - 1) = s.cfg.opcodeMap.hlt
  | .halted .divByZero => s.out.getLast? = some (.diag .divByZero)
  | .faulted (.unknownOpcodeFault op pc) =>
      s.pc = pc ∧ pc ≤ 255 ∧ s.mem.read pc = op ∧
      (countField op = 3 ∨ s.cfg.opcodeMap.lookup op = none) ∧
      s.out.getLast? = some (.diag .unknownOpcode)
  | .faulted (.addressError a) => 255 < a ∧ s.pc ≤ a ∧ a ≤ s.pc + 2
  | .faulted (.registerIndexFault r) =>
      7 < r.toNat ∧ (s.mem.read (s.pc + 1) = r ∨ s.mem.read (s.pc + 2) = r)

/-- The invariant of the state: memory is in canonical form, PC is 0 to 258 (10_state.md R28), the opcode map is
admissible (30_encoding.md R83), and STATUS tells the truth. -/
structure State.Inv (s : State) : Prop where
  memWf : s.mem.wf = true
  pcRange : s.pc ≤ 258
  mapAdmissible : s.cfg.opcodeMap.admissible = true
  statusInfo : StatusInfo s

/-! ### Runs -/

/-- `t` is reached from `s` by `n` steps, the ticks taken from the field `ticks`. -/
inductive Steps : Nat → State → State → Prop where
  | zero (s : State) : Steps 0 s s
  | succ {n : Nat} {s t u : State} : Steps n s t → step t = .next u → Steps (n + 1) s u

/-- A tick source's schedule: the tick of its `n`-th cycle, counted from 0. -/
def TickSource.nth : TickSource → Nat → Bool
  | k, 0 => k.now
  | k, n + 1 => k.rest.nth n

/-- The tick inputs left after `n` cycles. -/
def TickSource.drop : TickSource → Nat → TickSource
  | k, 0 => k
  | k, n + 1 => k.rest.drop n

/-- The state whose next cycle draws the tick `b`, and which then goes on with the ticks of `s`. -/
def offerTick (b : Bool) (s : State) : State :=
  { s with ticks := { upcoming := b :: s.ticks.upcoming, later := s.ticks.later } }

/-- `t` is reached from `s` by `n` steps in which the host supplies the ticks of the schedule `σ`, which is any
function of the cycle's number (60_exceptions.md R215). -/
inductive RunsUnder (σ : Nat → Bool) : Nat → State → State → Prop where
  | zero (s : State) : RunsUnder σ 0 s s
  | succ {n : Nat} {s t u : State} :
      RunsUnder σ n s t → step (offerTick (σ n) t) = .next u → RunsUnder σ (n + 1) s u

/-- A safe run: under no schedule of ticks is a Faulted state reached. -/
def SafeRun (s : State) : Prop := ∀ σ n t f, RunsUnder σ n s t → t.status ≠ .faulted f

end Sys2Proof.Machine
end

