-- ==== Sys2Proof/Certificates/Slice0/Obligations.lean ====
section
/-! DEFINITION. The statements for the provers. Each docstring names the rules of spec/ it formalises; where a
clause rests on one of the spec's own decisions (92_eei_decisions.md) or on a choice of this model, it says so. -/

open Sys2Proof Sys2Proof.Machine

/-! ### Reset -/

/-- What reset leaves, for every value of the parameters (70_reset_and_hazards.md section 1; PC, FL and the
parameters are the spec's decisions D14, D17, D30). -/
def Obligations.ResetLeavesParameterValues : Prop :=
  ∀ (r : ResetConfig) (c : Config) (k : TickSource), ∃ s, State.resetWith r c k = s ∧
    s.sp = 0xF4 ∧ (∀ j : Fin 7, s.reg j.castSucc = r.gprReset[j]) ∧ s.pc = 0 ∧ s.fl = 0 ∧
    s.ie = r.ieReset ∧ s.status = .running ∧ s.out = [] ∧ s.cfg = c ∧ s.ticks = k ∧
    ∀ a, a ≤ 255 → s.mem.read a = r.image.getD a 0

/-- The reset state of the host's interface is the one of the default parameters: the zeros are the defaults of
00_scope.md R7 (decisions D14, D17, D30; log entries 5, 6, 7). -/
def Obligations.ResetDefaultsAreZero : Prop :=
  State.reset.sp = 0xF4 ∧ (∀ j : Fin 8, j ≠ regSP → State.reset.reg j = 0) ∧ State.reset.pc = 0 ∧
  State.reset.fl = 0 ∧ State.reset.ie = false ∧ State.reset.status = .running ∧ State.reset.out = [] ∧
  State.reset.cfg = Config.default ∧ ∀ a, State.reset.mem.read a = 0

/-- Reset meets the invariant, for every admissible opcode map and every other parameter. -/
def Obligations.ResetMeetsInvariant : Prop :=
  State.reset.Inv ∧
  ∀ (r : ResetConfig) (c : Config) (k : TickSource), c.opcodeMap.admissible = true →
    (State.resetWith r c k).Inv

/-! ### Encoding -/

/-- Decoding an encoded instruction gives it back, with every operand byte, under every admissible opcode map
(30_encoding.md sections 1 to 4). -/
def Obligations.DecodeOfEncode : Prop :=
  ∀ (m : OpcodeMap) (i : Instr) (rest : List Byte), m.admissible = true →
    decode m (encode m i ++ rest) = .ok (i, rest)

/-- What decodes is the encoding of the instruction it decodes to: no second spelling, no dropped bit
(30_encoding.md sections 1 to 4). -/
def Obligations.DecodedBytesAreTheEncoding : Prop :=
  ∀ (m : OpcodeMap) (bs : List Byte) (i : Instr) (rest : List Byte),
    decode m bs = .ok (i, rest) → bs = encode m i ++ rest

/-- The default opcode map is admissible, and under it 227 of the 256 bytes are no opcode (30_encoding.md
section 4; the byte values are presumed, log entry 2). -/
def Obligations.DefaultOpcodeMapIsAdmissible : Prop :=
  OpcodeMap.default.admissible = true ∧
  ((List.range 256).filter fun n => (OpcodeMap.default.lookup (BitVec.ofNat 8 n)).isNone).length = 227

/-- What the decoder refuses, and by which name: the count 3 at once, then a missing byte, then an opcode that is
no mnemonic's (30_encoding.md sections 1 and 4; the order is the spec's decision D6). -/
def Obligations.DecoderRefusesByName : Prop :=
  ∀ (m : OpcodeMap) (op : Byte) (rest : List Byte),
    decode m [] = .error (.truncated 0) ∧
    (countField op = 3 → decode m (op :: rest) = .error (.unknownOpcode op)) ∧
    (countField op ≠ 3 → rest.length < countField op →
      decode m (op :: rest) = .error (.truncated (rest.length + 1))) ∧
    (countField op ≠ 3 → countField op ≤ rest.length → (∀ k, m.byte k ≠ op) →
      decode m (op :: rest) = .error (.unknownOpcode op))

/-- Words written out from the table of 30_encoding.md R78 decode to the instructions they stand for (the byte
values are presumed, log entry 2). -/
def Obligations.SampleWordsDecode : Prop :=
  decodeTableWord 8 0b00000001 = some .hlt ∧
  decodeTableWord 8 0b00010011 = some .iret ∧
  decodeTableWord 16 0b00000010_01000101 = some (.push 2) ∧
  decodeTableWord 16 0b00000011_01011010 = some (.jge 3) ∧
  decodeTableWord 24 0b11111111_00000011_10000010 = some (.ldi 3 255) ∧
  decodeTableWord 24 0b00000001_00000010_10100111 = some (.cmp 2 1) ∧
  decodeTableWord 8 0b00000000 = none

/-! ### The cycle -/

/-- When the bytes at PC, as steps 1 and 2 leave it, decode to `i`, the step is `exec i` at that state
(40_dispatch.md sections 1 to 3). -/
def Obligations.StepRunsTheDecodedInstruction : Prop :=
  ∀ (s t : State) (i : Instr) (rest : List Byte), s.status = .running → beforeFetch s = .ok t →
    decode t.cfg.opcodeMap t.window = .ok (i, rest) → step s = exec i t

/-- The same in terms of memory: when the bytes of `i` stand in memory from PC up, all below 256, the step is
`exec i` (40_dispatch.md sections 1 to 3, 20_memory.md section 2). -/
def Obligations.StepRunsTheBytesInMemory : Prop :=
  ∀ (s t : State) (i : Instr), s.status = .running → beforeFetch s = .ok t →
    t.cfg.opcodeMap.admissible = true → t.pc + i.length ≤ 256 →
    (∀ j (h : j < (encode t.cfg.opcodeMap i).length),
      t.mem.read (t.pc + j) = (encode t.cfg.opcodeMap i)[j]) →
    step s = exec i t

/-- A cycle without a tick in which IE is off or no enabled line is pending fetches in the state it started in,
the tick input consumed (40_dispatch.md section 1, 60_exceptions.md section 2; the tick input is the model's
field, log entry 9). -/
def Obligations.QuietCycleFetchesAtPc : Prop :=
  ∀ s : State, s.ticks.now = false → (s.ie = false ∨ s.reg regIM &&& s.reg regIS = 0) →
    beforeFetch s = .ok { s with ticks := s.ticks.rest }

/-- An unknown opcode at PC (60_exceptions.md R201). -/
def Obligations.UnknownOpcodeFaultsTheStep : Prop :=
  ∀ (s t : State) (op : Byte), s.status = .running → beforeFetch s = .ok t → t.pc ≤ 255 →
    t.mem.read t.pc = op →
    (countField op = 3 ∨ (t.pc + countField op ≤ 255 ∧ ∀ k, t.cfg.opcodeMap.byte k ≠ op)) →
    step s = .next { t with
      status := .faulted (.unknownOpcodeFault op t.pc), out := t.out ++ [.diag .unknownOpcode] }

/-- A fetch past address 255: of the opcode, or of an operand byte, whose address is then 256 (40_dispatch.md
section 2; the spec's decision D8). -/
def Obligations.FetchPastTheTopFaults : Prop :=
  ∀ s t : State, s.status = .running → beforeFetch s = .ok t →
    (255 < t.pc → step s = .next { t with status := .faulted (.addressError t.pc) }) ∧
    (t.pc ≤ 255 → countField (t.mem.read t.pc) ≠ 3 → 255 < t.pc + countField (t.mem.read t.pc) →
      step s = .next { t with status := .faulted (.addressError 256) })

/-- Every running state has a next state, whatever the tick (40_dispatch.md section 5). -/
def Obligations.RunningStateHasNextState : Prop :=
  ∀ s : State, s.status = .running → ∃ t, step s = .next t

/-- No cycle is taken from a terminal STATUS (40_dispatch.md section 5); that `step` answers a named fault there
is the model's choice (log entry 10). -/
def Obligations.TerminalStateTakesNoCycle : Prop :=
  ∀ s : State, s.status ≠ .running → step s = .fault (.notRunning s.status)

/-- Every step keeps the invariant: canonical memory, PC in 0 to 258, an admissible map, and a STATUS whose
recorded information is true of the state (10_state.md, 60_exceptions.md section 1). The clauses about STATUS rest on
the spec's own decisions (log entry 15): that HLT's opcode stands at PC - 1 after HLT is D13 (44_control.md section 3),
and a claim about a program should not read that PC; the addresses of an AddressError are D8 and D9, the index of a
RegisterIndexFault D10, and the PC that a fault leaves D11. -/
def Obligations.StepKeepsInvariant : Prop :=
  ∀ s t : State, s.Inv → step s = .next t → t.Inv

/-- A step appends at most one event to the output stream and never takes one away (70_reset_and_hazards.md
section 2, 10_state.md section 5). -/
def Obligations.StepEmitsAtMostOneEvent : Prop :=
  ∀ s t : State, step s = .next t → t.out = s.out ∨ ∃ e, t.out = s.out ++ [e]

/-- A step consumes one tick input and leaves the parameters alone (10_state.md section 7; both fields are the
model's, log entries 1 and 9). -/
def Obligations.StepConsumesOneTick : Prop :=
  ∀ s t : State, step s = .next t → t.cfg = s.cfg ∧ t.ticks = s.ticks.rest

/-- Of the tick input a step depends on the next tick alone: with another schedule that begins the same it makes
the same step (40_dispatch.md section 5). -/
def Obligations.StepReadsOnlyTheNextTick : Prop :=
  ∀ (s t : State) (k : TickSource), k.now = s.ticks.now → step s = .next t →
    step { s with ticks := k } = .next { t with ticks := k.rest }

/-- From a PC of at most 256 no step takes PC past 256: an operand that would lie past 255 faults first
(40_dispatch.md sections 2 and 4; sharper than the range 0 to 258 of 10_state.md). -/
def Obligations.PcNeverPasses256 : Prop :=
  ∀ s t : State, s.pc ≤ 256 → step s = .next t → t.pc ≤ 256

/-! ### Whole-machine rules -/

/-- The frame of every instruction on registers: only its destination, and SP where it pushes or pops, may change
(10_state.md section 1, files 41 to 45). -/
def Obligations.InstructionsWriteOnlyTheirRegisters : Prop :=
  ∀ (i : Instr) (s t : State), exec i s = .next t → RegsSameExcept (writtenRegs i) s t

/-- The frame of every instruction on memory: PUSH and CALL store at most the one byte at the address Push
computes, every other instruction leaves all of memory as it was (20_memory.md section 2). -/
def Obligations.OnlyPushAndCallStore : Prop :=
  ∀ (i : Instr) (s t : State), exec i s = .next t →
    ((∀ a, i ≠ .push a ∧ i ≠ .call a) → MemSame s t) ∧
    (s.mem.wf = true → MemSameExcept (pushAddr s) s t)

/-- Only CMP and IRET write FL (10_state.md section 4; the spec's decision D31). -/
def Obligations.OnlyCmpAndIretWriteFl : Prop :=
  ∀ (i : Instr) (s t : State), exec i s = .next t → (∀ a b, i ≠ .cmp a b) → i ≠ .iret → t.fl = s.fl

/-- No instruction but IRET writes IE, and none touches the parameters or the tick input (10_state.md section 5). -/
def Obligations.OnlyIretWritesIe : Prop :=
  ∀ (i : Instr) (s t : State), exec i s = .next t →
    (i ≠ .iret → t.ie = s.ie) ∧ t.cfg = s.cfg ∧ t.ticks = s.ticks

/-- IE rises in a step only by a tick, when the parameter lets ticks set it, or by an IRET; so with the parameter
off no entry happens inside a handler (60_exceptions.md section 2; the spec's decision D15). -/
def Obligations.IeRisesOnlyByTickOrIret : Prop :=
  ∀ s t : State, step s = .next t → s.ie = false → t.ie = true →
    (s.ticks.now = true ∧ s.cfg.tickSetsIE = true) ∨
    ∃ u rest, beforeFetch s = .ok u ∧ decode u.cfg.opcodeMap u.window = .ok (.iret, rest)

/-- Where PC goes: past the instruction when it is no control transfer and does not fault; to a byte address, or
past itself, after a control transfer that does not fault (30_encoding.md section 3, 40_dispatch.md section 4). Three
clauses are the spec's own decisions (log entry 15): a jump that is not taken goes past itself (D7), and PC also
advances past an HLT that halts (D13) and a DIV or MOD that halts (D12). -/
def Obligations.PcAdvancesByLengthOrJumps : Prop :=
  ∀ (i : Instr) (s t : State), exec i s = .next t → (∀ f, t.status ≠ .faulted f) →
    (i.mnemonic.isControlTransfer = false → t.pc = s.pc + i.length) ∧
    (i.mnemonic.isControlTransfer = true → t.pc ≤ 255 ∨ t.pc = s.pc + i.length)

/-- A fault of a handler is precise: nothing but STATUS changes (40_dispatch.md section 5, 60_exceptions.md
section 1; the spec's decision D11). -/
def Obligations.HandlerFaultChangesOnlyStatus : Prop :=
  ∀ (i : Instr) (s t : State) (f : CoreFault), s.status = .running → exec i s = .next t →
    t.status = .faulted f → t = { s with status := .faulted f }

/-- Every ill-formed instruction raises RegisterIndexFault for its first operand over 7, and no well-formed one
does (60_exceptions.md section 1; the spec's decision D10). -/
def Obligations.IllFormedInstructionsFault : Prop :=
  ∀ (i : Instr) (s : State),
    (i.wf = false → ∃ r, i.registerOperands.find? (fun r => decide (7 < r.toNat)) = some r ∧
      exec i s = .next { s with status := .faulted (.registerIndexFault r) }) ∧
    (i.wf = true → s.status = .running → ∀ t r, exec i s = .next t →
      t.status ≠ .faulted (.registerIndexFault r))

/-! ### ALU instructions -/

/-- ADD, SUB and MUL (41_alu.md R121, R122, R123): the result modulo 256 in the first register, for every pair of
registers, with a bad register index faulting. -/
def Obligations.AddSubMulWrapModulo256 : Prop :=
  BinaryResult .add (fun x y => x + y) ∧ BinaryResult .sub (fun x y => x - y) ∧
  BinaryResult .mul (fun x y => x * y) ∧
  IndexFault2 .add ∧ IndexFault2 .sub ∧ IndexFault2 .mul ∧
  EncodedF2 .add .add ∧ EncodedF2 .sub .sub ∧ EncodedF2 .mul .mul

/-- INC and DEC (41_alu.md R126, R127). -/
def Obligations.IncDecWrapModulo256 : Prop :=
  UnaryResult .inc (fun x => x + 1) ∧ UnaryResult .dec (fun x => x - 1) ∧
  IndexFault1 .inc ∧ IndexFault1 .dec ∧ EncodedF1 .inc .inc ∧ EncodedF1 .dec .dec

/-- AND, OR and XOR (41_alu.md R129, R130, R131), bit by bit. -/
def Obligations.AndOrXorAreBitwise : Prop :=
  BinaryResult .and (fun x y => x &&& y) ∧ BinaryResult .or (fun x y => x ||| y) ∧
  BinaryResult .xor (fun x y => x ^^^ y) ∧
  IndexFault2 .and ∧ IndexFault2 .or ∧ IndexFault2 .xor ∧
  EncodedF2 .and .and ∧ EncodedF2 .or .or ∧ EncodedF2 .xor .xor

/-- NOT, SHL and SHR (41_alu.md sections 3 and 4): the complement in 8 bits, and shifts by the whole byte, a count
of 8 or more giving 0 (the spec's decisions D1 and D21). -/
def Obligations.NotShlShrResults : Prop :=
  UnaryResult .not (fun x => ~~~x) ∧
  BinaryResult .shl (fun x y => if 8 ≤ y.toNat then 0 else x <<< y.toNat) ∧
  BinaryResult .shr (fun x y => if 8 ≤ y.toNat then 0 else x >>> y.toNat) ∧
  IndexFault1 .not ∧ IndexFault2 .shl ∧ IndexFault2 .shr

/-- DIV and MOD by a divisor that is not 0 (41_alu.md section 2; unsigned, the spec's decisions D2 and D32):
quotient and remainder satisfy `x = q * y + r` with `r < y`. -/
def Obligations.DivModResults : Prop :=
  (∀ (x y : Fin 8) (s : State), s.reg y ≠ 0 →
    ∃ t u, exec (.div (regByte x) (regByte y)) s = .next t ∧ exec (.mod (regByte x) (regByte y)) s = .next u ∧
      (s.reg x).toNat = (t.reg x).toNat * (s.reg y).toNat + (u.reg x).toNat ∧
      (u.reg x).toNat < (s.reg y).toNat ∧
      t.pc = s.pc + 3 ∧ OnlyRegs [x] s t ∧ u.pc = s.pc + 3 ∧ OnlyRegs [x] s u) ∧
  IndexFault2 .div ∧ IndexFault2 .mod

/-- DIV and MOD by zero (60_exceptions.md section 1, 41_alu.md section 2): a graceful halt with a diagnostic. That PC
advances by 3 is the spec's decision D12 (log entry 15), which also says that a claim about a program should not read
that PC. -/
def Obligations.DivModByZeroHalts : Prop :=
  ∀ (x y : Fin 8) (s : State) (i : Byte → Byte → Instr), i = .div ∨ i = .mod → s.reg y = 0 →
    ∃ t, exec (i (regByte x) (regByte y)) s = .next t ∧
      t.status = .halted .divByZero ∧ t.out = s.out ++ [.diag .divByZero] ∧ t.pc = s.pc + 3 ∧
      RegsSameExcept [] s t ∧ t.fl = s.fl ∧ MemSame s t ∧ GateSame s t

/-- CMP (41_alu.md section 5; unsigned, the spec's decision D2): FL is exactly one of 1, 2 and 4, by the order of
the operands, and nothing else but PC changes. -/
def Obligations.CmpSetsOneOfThreeFlags : Prop :=
  (∀ (x y : Fin 8) (s : State), ∃ t, exec (.cmp (regByte x) (regByte y)) s = .next t ∧
    (t.fl = 1 ↔ s.reg x = s.reg y) ∧ (t.fl = 2 ↔ (s.reg y).toNat < (s.reg x).toNat) ∧
    (t.fl = 4 ↔ (s.reg x).toNat < (s.reg y).toNat) ∧ t.pc = s.pc + 3 ∧
    RegsSameExcept [] s t ∧ MemSame s t ∧ GateSame s t ∧ PortsSame s t) ∧
  IndexFault2 .cmp

/-! ### Data, output and stack -/

/-- LDI (42_data_io.md R150): every byte into every register. -/
def Obligations.LdiLoadsTheByte : Prop :=
  (∀ (x : Fin 8) (v : Byte) (s : State), ∃ t, exec (.ldi (regByte x) v) s = .next t ∧
    t.reg x = v ∧ t.pc = s.pc + 3 ∧ OnlyRegs [x] s t) ∧
  (∀ a v s, 7 < a.toNat → exec (.ldi a v) s = .next { s with status := .faulted (.registerIndexFault a) }) ∧
  EncodedF2 .ldi .ldi

/-- PRN (42_data_io.md): the register's value is the one event; nothing else but PC changes. How the host renders
it is outside the model. -/
def Obligations.PrnEmitsTheValue : Prop :=
  (∀ (x : Fin 8) (s : State), ∃ t, exec (.prn (regByte x)) s = .next t ∧
    t.out = s.out ++ [.out (s.reg x)] ∧ t.pc = s.pc + 2 ∧ t.status = s.status ∧
    RegsSameExcept [] s t ∧ t.fl = s.fl ∧ MemSame s t ∧ GateSame s t) ∧
  IndexFault1 .prn

/-- Push (43_stack.md R160): SP is decremented modulo 256 and the byte stands at the new SP, in every state with a
canonical memory; nothing else changes. -/
def Obligations.PushStoresBelowSp : Prop :=
  ∀ (v : Byte) (s : State), s.mem.wf = true →
    (push v s).sp = s.sp - 1 ∧ (push v s).mem.read (s.sp - 1).toNat = v ∧
    MemSameExcept (s.sp - 1) s (push v s) ∧ RegsSameExcept [regSP] s (push v s) ∧
    (push v s).pc = s.pc ∧ (push v s).fl = s.fl ∧ GateSame s (push v s) ∧ PortsSame s (push v s)

/-- Pop (43_stack.md R161): the byte at SP, and then SP incremented modulo 256; memory is not cleared. -/
def Obligations.PopReadsAtSp : Prop :=
  ∀ s : State, popValue s = s.mem.read s.sp.toNat ∧ (popState s).sp = s.sp + 1 ∧
    OnlyRegs [regSP] s (popState s) ∧ (popState s).pc = s.pc

/-- PUSH (43_stack.md section 2): the value is the register's before the decrement, for R7 too (the spec's decision
D20); the byte goes to the address Push computes. -/
def Obligations.PushInstructionResult : Prop :=
  (∀ (x : Fin 8) (s : State), s.mem.wf = true → ∃ t, exec (.push (regByte x)) s = .next t ∧
    t.sp = s.sp - 1 ∧ t.mem.read (pushAddr s).toNat = s.reg x ∧ pushAddr s = s.sp - 1 ∧
    MemSameExcept (pushAddr s) s t ∧ RegsSameExcept [regSP] s t ∧ t.fl = s.fl ∧ t.pc = s.pc + 2 ∧
    GateSame s t ∧ PortsSame s t) ∧
  IndexFault1 .push

/-- POP (43_stack.md section 2): the byte at SP into the register and SP incremented, but for R7, which ends equal
to the popped byte (the spec's decision D19). -/
def Obligations.PopInstructionResult : Prop :=
  (∀ (x : Fin 8) (s : State), ∃ t, exec (.pop (regByte x)) s = .next t ∧
    t.reg x = s.mem.read s.sp.toNat ∧ (x ≠ regSP → t.sp = s.sp + 1) ∧ t.pc = s.pc + 2 ∧
    OnlyRegs [x, regSP] s t) ∧
  IndexFault1 .pop

/-- Pushes followed by as many pops (43_stack.md section 2): the values come back in reverse, SP returns, and the
cells keep the values, for up to the 256 pushes after which the stack overwrites itself. -/
def Obligations.PopsUndoPushes : Prop :=
  ∀ (vs : List Byte) (s : State), s.mem.wf = true → vs.length ≤ 256 →
    (popAll vs.length (pushAll vs s)).1 = vs.reverse ∧
    (popAll vs.length (pushAll vs s)).2.sp = s.sp ∧
    (popAll vs.length (pushAll vs s)).2.mem = (pushAll vs s).mem ∧
    ∀ j (h : j < vs.length), (pushAll vs s).mem.read (s.sp - BitVec.ofNat 8 (j + 1)).toNat = vs[j]

/-! ### Control transfer -/

/-- CALL (44_control.md section 1; the target is read before the push and a return address over 255 faults, the
spec's decisions D18 and D9). -/
def Obligations.CallPushesTheReturnAddress : Prop :=
  (∀ (x : Fin 8) (s : State), s.mem.wf = true → s.pc + 2 ≤ 255 →
    ∃ t, exec (.call (regByte x)) s = .next t ∧
      t.pc = (s.reg x).toNat ∧ t.sp = s.sp - 1 ∧
      (t.mem.read (pushAddr s).toNat).toNat = s.pc + 2 ∧ pushAddr s = s.sp - 1 ∧
      MemSameExcept (pushAddr s) s t ∧ RegsSameExcept [regSP] s t ∧ t.fl = s.fl ∧
      GateSame s t ∧ PortsSame s t) ∧
  (∀ (x : Fin 8) (s : State), 255 < s.pc + 2 →
    exec (.call (regByte x)) s = .next { s with status := .faulted (.addressError (s.pc + 2)) }) ∧
  IndexFault1 .call

/-- RET (44_control.md R171): PC is the popped byte, always an address of memory. -/
def Obligations.RetPopsPc : Prop :=
  (∀ s : State, ∃ t, exec .ret s = .next t ∧ t.pc = (s.mem.read s.sp.toNat).toNat ∧ t.pc ≤ 255 ∧
    t.sp = s.sp + 1 ∧ OnlyRegs [regSP] s t) ∧
  EncodedF0 .ret .ret

/-- A CALL and a later RET that finds SP and the saved byte as CALL left them return to the instruction after the
CALL with SP restored (44_control.md section 1). -/
def Obligations.RetReturnsBehindTheCall : Prop :=
  ∀ (x : Fin 8) (s t u : State), s.mem.wf = true → s.pc + 2 ≤ 255 →
    exec (.call (regByte x)) s = .next t → u.sp = t.sp →
    u.mem.read t.sp.toNat = t.mem.read t.sp.toNat →
    ∃ v, exec .ret u = .next v ∧ v.pc = s.pc + 2 ∧ v.sp = s.sp

/-- JMP (44_control.md R172). -/
def Obligations.JmpGoesToTheRegister : Prop :=
  (∀ (x : Fin 8) (s : State), ∃ t, exec (.jmp (regByte x)) s = .next t ∧
    t.pc = (s.reg x).toNat ∧ OnlyRegs [] s t) ∧
  IndexFault1 .jmp ∧ EncodedF1 .jmp .jmp

/-- The six conditional jumps for every FL byte (44_control.md R174 to R179): JGE and JLE are the complements of
Less and Greater. -/
def Obligations.ConditionalJumpsTestFlByValue : Prop :=
  JumpResult .jeq (fun fl => fl = 1) ∧ JumpResult .jne (fun fl => fl ≠ 1) ∧
  JumpResult .jgt (fun fl => fl = 2) ∧ JumpResult .jlt (fun fl => fl = 4) ∧
  JumpResult .jge (fun fl => fl ≠ 4) ∧ JumpResult .jle (fun fl => fl ≠ 2) ∧
  IndexFault1 .jeq ∧ IndexFault1 .jne ∧ IndexFault1 .jgt ∧ IndexFault1 .jlt ∧ IndexFault1 .jge ∧
  IndexFault1 .jle ∧
  EncodedF1 .jeq .jeq ∧ EncodedF1 .jne .jne ∧ EncodedF1 .jgt .jgt ∧ EncodedF1 .jlt .jlt ∧
  EncodedF1 .jge .jge ∧ EncodedF1 .jle .jle

/-- HLT (44_control.md section 3; PC + 1 is the spec's decision D13). -/
def Obligations.HltHalts : Prop :=
  ∀ s : State, ∃ t, exec .hlt s = .next t ∧ t.status = .halted .hlt ∧ t.pc = s.pc + 1 ∧ t.out = s.out ∧
    RegsSameExcept [] s t ∧ t.fl = s.fl ∧ MemSame s t ∧ GateSame s t

/-! ### Interrupts -/

/-- IRET (45_iret.md): R6 down to R0, FL and PC from the nine bytes at SP, and IE set; FL takes the byte as it is
(the spec's decision D34). -/
def Obligations.IretPopsTheFrame : Prop :=
  ∀ s : State, ∃ t, exec .iret s = .next t ∧
    (∀ j : Fin 7, t.reg j.castSucc = s.mem.read (s.sp + BitVec.ofNat 8 (6 - j.val)).toNat) ∧
    t.fl = s.mem.read (s.sp + 7).toNat ∧ t.pc = (s.mem.read (s.sp + 8).toNat).toNat ∧
    t.sp = s.sp + 9 ∧ t.ie = true ∧ MemSame s t ∧ t.cfg = s.cfg ∧ t.ticks = s.ticks ∧ PortsSame s t

/-- Step 1 (60_exceptions.md section 2): a tick sets IS bit 0 and, when the parameter says so, IE; no tick changes
nothing (the spec's decisions D15, D16, D33; the tick input is the model's field, log entry 9). -/
def Obligations.TickSetsTheTimerBit : Prop :=
  ∀ s : State,
    (s.ticks.now = false → afterTimer s = { s with ticks := s.ticks.rest }) ∧
    (s.ticks.now = true →
      (afterTimer s).reg regIS = s.reg regIS ||| 1 ∧ (afterTimer s).ie = (s.ie || s.cfg.tickSetsIE) ∧
      RegsSameExcept [regIS] s (afterTimer s) ∧ (afterTimer s).fl = s.fl ∧ (afterTimer s).pc = s.pc ∧
      MemSame s (afterTimer s) ∧ PortsSame s (afterTimer s) ∧ (afterTimer s).cfg = s.cfg)

/-- Step 2 (60_exceptions.md R210): nothing when no enabled line is pending, else the entry of the least line whose
bit is set in IM & IS, for that line alone. -/
def Obligations.InterruptCheckTakesTheLowestLine : Prop :=
  ∀ s : State, s.ie = true →
    (s.reg regIM &&& s.reg regIS = 0 → interruptStep s = .ok s) ∧
    ∀ i : Fin 8, (s.reg regIM &&& s.reg regIS).getLsbD i.val = true →
      (∀ j : Fin 8, j < i → (s.reg regIM &&& s.reg regIS).getLsbD j.val = false) →
      interruptStep s = enterInterrupt i s

/-- Interrupt entry (60_exceptions.md section 2): the frame of nine bytes below SP, IE and the serviced IS bit
cleared, PC from the vector table as it stands after the pushes; every other byte and register is unchanged. -/
def Obligations.InterruptEntrySavesTheFrame : Prop :=
  ∀ (s : State) (i : Fin 8), s.mem.wf = true → s.pc ≤ 255 →
    ∃ t, enterInterrupt i s = .ok t ∧ t.sp = s.sp - 9 ∧
      (t.mem.read (s.sp - 1).toNat).toNat = s.pc ∧ t.mem.read (s.sp - 2).toNat = s.fl ∧
      (∀ j : Fin 6, t.mem.read (s.sp - BitVec.ofNat 8 (j.val + 3)).toNat = s.reg (j.castAdd 2)) ∧
      t.mem.read (s.sp - 9).toNat = s.reg regIS &&& ~~~(1#8 <<< i.val) ∧
      t.reg regIS = s.reg regIS &&& ~~~(1#8 <<< i.val) ∧
      RegsSameExcept [regIS, regSP] s t ∧ t.ie = false ∧ t.fl = s.fl ∧
      t.pc = (t.mem.read (s.cfg.vectorBase.val + i.val)).toNat ∧
      (∀ a, (∀ j : Fin 9, a ≠ (s.sp - BitVec.ofNat 8 (j.val + 1)).toNat) → t.mem.read a = s.mem.read a) ∧
      PortsSame s t ∧ t.cfg = s.cfg ∧ t.ticks = s.ticks

/-- An entry whose PC does not fit a byte faults before any write, and the step keeps only the tick's effects
(60_exceptions.md section 2; the spec's decision D9). -/
def Obligations.InterruptEntryPastTheTopFaults : Prop :=
  (∀ (s : State) (i : Fin 8), 255 < s.pc → enterInterrupt i s = .error (.addressError s.pc)) ∧
  ∀ s : State, s.status = .running → (afterTimer s).ie = true →
    (afterTimer s).reg regIM &&& (afterTimer s).reg regIS ≠ 0 → 255 < s.pc →
    step s = .next { afterTimer s with status := .faulted (.addressError s.pc) }

/-- An entry and the handler's first instruction are one cycle (40_dispatch.md section 1). -/
def Obligations.EntryAndFirstInstructionAreOneStep : Prop :=
  ∀ (s t : State) (i : Fin 8) (j : Instr) (rest : List Byte), s.status = .running →
    (afterTimer s).ie = true →
    ((afterTimer s).reg regIM &&& (afterTimer s).reg regIS).getLsbD i.val = true →
    (∀ l : Fin 8, l < i → ((afterTimer s).reg regIM &&& (afterTimer s).reg regIS).getLsbD l.val = false) →
    enterInterrupt i (afterTimer s) = .ok t → decode t.cfg.opcodeMap t.window = .ok (j, rest) →
    step s = exec j t

/-- A tick with line 0 enabled enters line 0 in the same cycle, inside a handler too, when the parameter lets ticks
set IE or IE is on already (60_exceptions.md section 2; the spec's decision D15 and its reading of conflict C7; the
tick input is the model's field, log entry 9). -/
def Obligations.TickEntersTheTimerLine : Prop :=
  ∀ s : State, s.ticks.now = true → (s.cfg.tickSetsIE = true ∨ s.ie = true) →
    (s.reg regIM).getLsbD 0 = true → beforeFetch s = enterInterrupt 0 (afterTimer s)

/-- IRET undoes an entry (60_exceptions.md section 2, 45_iret.md): when the handler leaves SP and the nine bytes of
the frame as it found them, R0 to R5, SP, FL and PC are what they were, IS what it was without the serviced bit,
and IE is on. -/
def Obligations.IretUndoesTheEntry : Prop :=
  ∀ (s t u : State) (i : Fin 8), s.mem.wf = true → enterInterrupt i s = .ok t →
    u.sp = t.sp →
    (∀ j : Fin 9, u.mem.read (t.sp + BitVec.ofNat 8 j.val).toNat = t.mem.read (t.sp + BitVec.ofNat 8 j.val).toNat) →
    ∃ v, exec .iret u = .next v ∧ (∀ r, r ≠ regIS → v.reg r = s.reg r) ∧
      v.reg regIS = s.reg regIS &&& ~~~(1#8 <<< i.val) ∧ v.fl = s.fl ∧ v.pc = s.pc ∧ v.ie = true

/-! ### Memory and ports -/

/-- MemRead and MemWrite (20_memory.md section 1): the cell, or AddressError past 255 before touching memory. -/
def Obligations.MemoryPrimitivesCheckTheAddress : Prop :=
  ∀ (s : State) (a : Nat) (v : Byte), s.mem.wf = true →
    (a ≤ 255 → memRead a s = .ok (s.mem.read a) ∧
      ∃ t, memWrite a v s = .ok t ∧ t.mem.read a = v ∧ (∀ b, b ≠ a → t.mem.read b = s.mem.read b) ∧
        RegsSameExcept [] s t ∧ t.pc = s.pc ∧ t.fl = s.fl ∧ GateSame s t ∧ PortsSame s t) ∧
    (255 < a → memRead a s = .error (.addressError a) ∧ memWrite a v s = .error (.addressError a))

/-- Memories in canonical form that read alike at every address are equal data (the model's representation of
10_state.md section 6, log entry 7). -/
def Obligations.EqualMemoriesAreEqualData : Prop :=
  ∀ m m' : Memory, m.wf = true → m'.wf = true → (∀ a, a ≤ 255 → m.read a = m'.read a) → m = m'

/-- The codes of the status port (60_exceptions.md section 1; the spec's decision D28). -/
def Obligations.StatusCodes : Prop :=
  Status.running.code = 0 ∧ (Status.halted .hlt).code = 1 ∧ (Status.halted .divByZero).code = 2 ∧
  (∀ op p, (Status.faulted (.unknownOpcodeFault op p)).code = 3) ∧
  (∀ a, (Status.faulted (.addressError a)).code = 4) ∧
  (∀ r, (Status.faulted (.registerIndexFault r)).code = 5) ∧
  ∀ st : Status, st.code = 0 ↔ st = .running

/-! ### Tick schedules -/

/-- The tick input admits every schedule (60_exceptions.md section 2; the tick field and its free tail are the
model's, log entry 9): steps that draw from a tick source are exactly the run under its schedule; every schedule's
first ticks can be listed in the field; and a free tail draws the values of `Config.freeTick`, of which nothing is
known, one after the other. -/
def Obligations.EveryTickScheduleIsAdmitted : Prop :=
  (∀ (k : TickSource) (n : Nat) (s t : State),
    Steps n { s with ticks := k } { t with ticks := k.drop n } ↔
      RunsUnder k.nth n s { t with ticks := s.ticks }) ∧
  (∀ (σ : Nat → Bool) (n : Nat) (s t : State),
    RunsUnder σ n s t ↔
      Steps n { s with ticks := ⟨(List.range n).map σ ++ s.ticks.upcoming, s.ticks.later⟩ } t) ∧
  ∀ k j, ({ upcoming := [], later := .free k } : TickSource).nth j = Config.freeTick (k + j)
end

