-- ==== Sys2Proof/Laws/Alu.lean ====
section
/-! SUPPORT. What each ALU function computes, in the arithmetic of bit vectors or of natural numbers (41_alu.md
R121 to R135). -/

namespace Sys2Proof.Machine

variable (x y : Byte)

theorem wrap8_toNat (v : Int) : (wrap8 v).toNat = (v % 256).toNat := by
  simp [wrap8, BitVec.toNat_ofInt]

theorem aluAdd_eq : aluAdd x y = x + y := by
  apply BitVec.eq_of_toNat_eq
  rw [aluAdd, wrap8_toNat, BitVec.toNat_add]
  omega

theorem aluSub_eq : aluSub x y = x - y := by
  apply BitVec.eq_of_toNat_eq
  rw [aluSub, wrap8_toNat, BitVec.toNat_sub]
  omega

theorem aluMul_eq : aluMul x y = x * y := by
  apply BitVec.eq_of_toNat_eq
  rw [aluMul, wrap8_toNat, BitVec.toNat_mul, ← Nat.cast_mul]
  omega

theorem aluInc_eq : aluInc x = x + 1 := by
  apply BitVec.eq_of_toNat_eq
  rw [aluInc, wrap8_toNat, BitVec.toNat_add]
  simp
  omega

theorem aluDec_eq : aluDec x = x - 1 := by
  apply BitVec.eq_of_toNat_eq
  rw [aluDec, wrap8_toNat, BitVec.toNat_sub]
  simp
  omega

theorem aluNot_eq : aluNot x = ~~~x := by
  apply BitVec.eq_of_toNat_eq
  have := x.isLt
  rw [aluNot, wrap8_toNat, BitVec.toNat_not]
  omega

/-- A number that fits a byte is its own wrap. -/
theorem wrap8_toNat_of_le {n : Nat} (h : n ≤ x.toNat) : (wrap8 (n : Int)).toNat = n := by
  have := x.isLt
  rw [wrap8_toNat]
  omega

theorem aluDiv_toNat : (aluDiv x y).toNat = x.toNat / y.toNat :=
  wrap8_toNat_of_le x (Nat.div_le_self _ _)

theorem aluMod_toNat : (aluMod x y).toNat = x.toNat % y.toNat := by
  have h : (x.toNat : Int) - y.toNat * (x.toNat / y.toNat : Nat) = (x.toNat % y.toNat : Nat) := by
    have := Nat.div_add_mod x.toNat y.toNat
    rw [sub_eq_iff_eq_add, ← Nat.cast_mul, ← Nat.cast_add, add_comm, this]
  rw [aluMod, h]
  exact wrap8_toNat_of_le x (Nat.mod_le _ _)

/-- Every bit is shifted out by a count of 8 or more (R132). -/
theorem aluShl_big (h : 8 ≤ y.toNat) : aluShl x y = 0 := by
  apply BitVec.eq_of_toNat_eq
  obtain ⟨k, hk⟩ := Nat.exists_eq_add_of_le h
  rw [aluShl, wrap8_toNat, Nat.shiftLeft_eq, hk, pow_add,
    show x.toNat * (2 ^ 8 * 2 ^ k) = 256 * (x.toNat * 2 ^ k) by ring]
  simp

theorem aluShl_eq : aluShl x y = x <<< y.toNat := by
  apply BitVec.eq_of_toNat_eq
  rw [aluShl, wrap8_toNat, BitVec.toNat_shiftLeft]
  omega

theorem aluShr_eq : aluShr x y = x >>> y.toNat := by
  apply BitVec.eq_of_toNat_eq
  rw [BitVec.toNat_ushiftRight]
  exact wrap8_toNat_of_le x (by rw [Nat.shiftRight_eq_div_pow]; exact Nat.div_le_self _ _)

/-- Every bit is shifted out by a count of 8 or more (R133). -/
theorem aluShr_big (h : 8 ≤ y.toNat) : aluShr x y = 0 := by
  rw [aluShr_eq]
  apply BitVec.eq_of_toNat_eq
  rw [BitVec.toNat_ushiftRight, Nat.shiftRight_eq_div_pow]
  exact Nat.div_eq_of_lt (lt_of_lt_of_le x.isLt (Nat.pow_le_pow_right (by omega) h))

end Sys2Proof.Machine
end

