-- ==== Sys2Proof/Laws/Decode.lean ====
section
/-! SUPPORT. The opcode tables: every mnemonic is listed, and what the lookup and the builder answer. -/

namespace Sys2Proof

variable {m : OpcodeMap} {op : Byte} {k : Mnemonic} {i : Instr} {ops bs rest : List Byte}

theorem Mnemonic.mem_all (k : Mnemonic) : k ∈ Mnemonic.all := by cases k <;> decide

/-- What an admissible map promises (30_encoding.md R83). -/
theorem OpcodeMap.admissible_iff :
    m.admissible = true ↔
      ∀ k, countField (m.byte k) = k.format.operandCount ∧ ∀ k', m.byte k = m.byte k' → k = k' := by
  simp only [OpcodeMap.admissible, List.all_eq_true, Bool.and_eq_true, decide_eq_true_eq]
  exact ⟨fun h k => ⟨(h k k.mem_all).1, fun k' => (h k k.mem_all).2 k' k'.mem_all⟩,
    fun h k _ => ⟨(h k).1, fun k' _ => (h k).2 k'⟩⟩

/-- The lookup answers only a mnemonic whose byte is the opcode. -/
theorem OpcodeMap.byte_of_lookup (h : m.lookup op = some k) : m.byte k = op := by
  simpa using List.find?_some h

/-- Under an admissible map the lookup finds every mnemonic's byte. -/
theorem OpcodeMap.lookup_byte (hm : m.admissible = true) : m.lookup (m.byte k) = some k := by
  cases h : m.lookup (m.byte k) with
  | none =>
    have := List.find?_eq_none.1 h k k.mem_all
    simp at this
  | some k' => rw [(OpcodeMap.admissible_iff.1 hm k').2 k (OpcodeMap.byte_of_lookup h)]

theorem Instr.build_operands (i : Instr) : i.mnemonic.build i.operands = some i := by cases i <;> rfl

theorem build0_eq_some {j : Instr} (h : build0 i ops = some j) : ops = [] ∧ i = j := by
  cases ops <;> simp_all [build0]

theorem build1_eq_some {c : Byte → Instr} {j : Instr} (h : build1 c ops = some j) :
    ∃ a, ops = [a] ∧ c a = j := by
  match ops, h with
  | [a], h => exact ⟨a, rfl, by simpa [build1] using h⟩

theorem build2_eq_some {c : Byte → Byte → Instr} {j : Instr} (h : build2 c ops = some j) :
    ∃ a b, ops = [a, b] ∧ c a b = j := by
  match ops, h with
  | [a, b], h => exact ⟨a, b, rfl, by simpa [build2] using h⟩

/-- The builder answers only an instruction of that mnemonic and those operands. -/
theorem Mnemonic.of_build (h : k.build ops = some i) : i.mnemonic = k ∧ i.operands = ops := by
  cases k <;>
  first
  | obtain ⟨rfl, rfl⟩ := build0_eq_some h; exact ⟨rfl, rfl⟩
  | obtain ⟨a, rfl, rfl⟩ := build1_eq_some h; exact ⟨rfl, rfl⟩
  | obtain ⟨a, b, rfl, rfl⟩ := build2_eq_some h; exact ⟨rfl, rfl⟩

/-- A builder answers when it gets the operand count of its format. -/
theorem Mnemonic.build_isSome (h : ops.length = k.format.operandCount) : ∃ i, k.build ops = some i := by
  match ops, h with
  | [], h => cases k <;> first | exact ⟨_, rfl⟩ | exact absurd h (by decide)
  | [a], h => cases k <;> first | exact ⟨_, rfl⟩ | (simp [Mnemonic.format, Format.operandCount] at h)
  | [a, b], h => cases k <;> first | exact ⟨_, rfl⟩ | (simp [Mnemonic.format, Format.operandCount] at h)
  | a :: b :: c :: d, h => cases k <;> (simp [Mnemonic.format, Format.operandCount] at h)

/-- Everything the decoder can answer on bytes that begin with `op`, in the order it decides
(40_dispatch.md R103, R104). -/
theorem decode_cases :
    (countField op = 3 ∧ decode m (op :: rest) = .error (.unknownOpcode op)) ∨
    (countField op ≠ 3 ∧ rest.length < countField op ∧
      decode m (op :: rest) = .error (.truncated (rest.length + 1))) ∨
    (countField op ≠ 3 ∧ countField op ≤ rest.length ∧
      ((∃ k i, m.lookup op = some k ∧ k.build (rest.take (countField op)) = some i ∧
          decode m (op :: rest) = .ok (i, rest.drop (countField op))) ∨
        ((m.lookup op).bind (fun k => k.build (rest.take (countField op))) = none ∧
          decode m (op :: rest) = .error (.unknownOpcode op)))) := by
  simp only [decode]
  split
  · exact .inl ⟨‹_›, rfl⟩
  · split
    · exact .inr (.inl ⟨‹_›, ‹_›, rfl⟩)
    · refine .inr (.inr ⟨‹_›, by omega, ?_⟩)
      cases h : (m.lookup op).bind fun k => k.build (rest.take (countField op)) with
      | none => exact .inr ⟨rfl, rfl⟩
      | some i =>
        obtain ⟨k, hk, hb⟩ := Option.bind_eq_some_iff.1 h
        exact .inl ⟨k, i, hk, hb, rfl⟩

end Sys2Proof
end

