-- ==== Sys2Proof/Laws/Memory.lean ====
section
/-! SUPPORT. Laws of memory: read after write, and that every operation keeps the canonical form. -/

namespace Sys2Proof.Machine

variable {m : Memory} {a b lo : Nat} {v w : Byte} {vs : List Byte}

@[simp] theorem Memory.read_nil : Memory.read [] a = Memory.unlisted := rfl

theorem Memory.read_listed : Memory.read ((b, w) :: m) a = if a = b then w else m.read a := rfl

theorem Memory.wfFrom_listed :
    Memory.wfFrom lo ((a, v) :: m) = true ↔
      lo ≤ a ∧ a ≤ 255 ∧ v ≠ Memory.unlisted ∧ Memory.wfFrom (a + 1) m = true := by
  simp [Memory.wfFrom, and_assoc]

/-- The canonical form from `b` up is the canonical form from any lower address up. -/
theorem Memory.wfFrom_mono (h : Memory.wfFrom b m = true) (hab : a ≤ b) : Memory.wfFrom a m = true := by
  cases m with
  | nil => rfl
  | cons c m =>
    obtain ⟨c, w⟩ := c
    rw [Memory.wfFrom_listed] at h ⊢
    exact ⟨hab.trans h.1, h.2⟩

/-- An address below the first listed one reads as unlisted. -/
theorem Memory.read_below (h : Memory.wfFrom lo m = true) (ha : a < lo) : m.read a = Memory.unlisted := by
  induction m generalizing lo with
  | nil => rfl
  | cons c m ih =>
    obtain ⟨c, w⟩ := c
    rw [Memory.wfFrom_listed] at h
    rw [Memory.read_listed, if_neg (by omega)]
    exact ih h.2.2.2 (by omega)

/-- An address past 255 reads as unlisted. -/
theorem Memory.read_above (h : Memory.wfFrom lo m = true) (ha : 255 < a) : m.read a = Memory.unlisted := by
  induction m generalizing lo with
  | nil => rfl
  | cons c m ih =>
    obtain ⟨c, w⟩ := c
    rw [Memory.wfFrom_listed] at h
    rw [Memory.read_listed, if_neg (by omega)]
    exact ih h.2.2.2

theorem Memory.read_cons (h : Memory.wfFrom (b + 1) m = true) :
    (Memory.cons b v m).read a = if a = b then v else m.read a := by
  unfold Memory.cons
  split
  · split
    · subst_vars; exact Memory.read_below h (Nat.lt_succ_self _)
    · rfl
  · exact Memory.read_listed

theorem Memory.wfFrom_cons (h : Memory.wfFrom (b + 1) m = true) (hlo : lo ≤ b) (hb : b ≤ 255) :
    Memory.wfFrom lo (Memory.cons b v m) = true := by
  unfold Memory.cons
  split
  · exact Memory.wfFrom_mono h (by omega)
  · exact Memory.wfFrom_listed.2 ⟨hlo, hb, ‹_›, h⟩

/-- A read after a write: the value written at its address, what was there elsewhere. -/
theorem Memory.read_write_from (h : Memory.wfFrom lo m = true) :
    (m.write b v).read a = if a = b then v else m.read a := by
  induction m generalizing lo with
  | nil =>
    exact Memory.read_cons rfl
  | cons c m ih =>
    obtain ⟨c, w⟩ := c
    rw [Memory.wfFrom_listed] at h
    unfold Memory.write
    split
    · exact Memory.read_cons (Memory.wfFrom_listed.2 ⟨by omega, h.2⟩)
    · split
      · subst_vars
        rw [Memory.read_cons h.2.2.2, Memory.read_listed]
        split <;> rfl
      · rw [Memory.read_listed, Memory.read_listed, ih h.2.2.2]
        split
        · rw [if_neg (by omega)]
        · rfl

theorem Memory.wfFrom_write (h : Memory.wfFrom lo m = true) (hlo : lo ≤ a) (ha : a ≤ 255) :
    Memory.wfFrom lo (m.write a v) = true := by
  induction m generalizing lo with
  | nil => exact Memory.wfFrom_cons rfl hlo ha
  | cons c m ih =>
    obtain ⟨c, w⟩ := c
    rw [Memory.wfFrom_listed] at h
    unfold Memory.write
    split
    · exact Memory.wfFrom_cons (Memory.wfFrom_listed.2 ⟨by omega, h.2⟩) hlo ha
    · split
      · subst_vars
        exact Memory.wfFrom_cons h.2.2.2 hlo ha
      · exact Memory.wfFrom_listed.2 ⟨h.1, h.2.1, h.2.2.1, ih h.2.2.2 (by omega)⟩

/-- Read after write, for a memory in canonical form. -/
theorem Memory.read_write (h : m.wf = true) : (m.write b v).read a = if a = b then v else m.read a :=
  Memory.read_write_from h

theorem Memory.read_write_same (h : m.wf = true) : (m.write a v).read a = v := by
  rw [Memory.read_write h, if_pos rfl]

theorem Memory.read_write_ne (h : m.wf = true) (hne : a ≠ b) : (m.write b v).read a = m.read a := by
  rw [Memory.read_write h, if_neg hne]

/-- A write keeps the canonical form. -/
theorem Memory.write_wf (h : m.wf = true) (ha : a ≤ 255) : (m.write a v).wf = true :=
  Memory.wfFrom_write h (Nat.zero_le _) ha

theorem Memory.wfFrom_ofBytes : Memory.wfFrom a (Memory.ofBytes a vs) = true := by
  induction vs generalizing a with
  | nil => rfl
  | cons v vs ih =>
    unfold Memory.ofBytes
    split
    · exact Memory.wfFrom_cons ih le_rfl ‹_›
    · rfl

/-- The image of reset is in canonical form. -/
theorem Memory.ofBytes_wf : (Memory.ofBytes 0 vs).wf = true := Memory.wfFrom_ofBytes

/-- What the image holds: its byte at each address, unlisted past it. -/
theorem Memory.read_ofBytes (hb : a + b ≤ 255) :
    (Memory.ofBytes a vs).read (a + b) = vs.getD b Memory.unlisted := by
  induction vs generalizing a b with
  | nil => simp [Memory.ofBytes]
  | cons v vs ih =>
    rw [Memory.ofBytes, if_pos (by omega), Memory.read_cons Memory.wfFrom_ofBytes]
    cases b with
    | zero => simp
    | succ b =>
      have := ih (a := a + 1) (b := b) (by omega)
      rw [if_neg (by omega), show a + (b + 1) = a + 1 + b by omega, this]
      simp

end Sys2Proof.Machine
end

