-- ==== Sys2Proof/Laws/State.lean ====
section
/-! SUPPORT. One lemma per field per update, so that no proof unfolds a record update. -/

namespace Sys2Proof.Machine

variable (s : State) (i j : Fin 8) (v a : Byte) (n : Nat) (e : Event) (c : HaltCause) (f : CoreFault)

/-! ### setReg -/

@[simp] theorem setReg_pc : (s.setReg i v).pc = s.pc := rfl
@[simp] theorem setReg_fl : (s.setReg i v).fl = s.fl := rfl
@[simp] theorem setReg_ie : (s.setReg i v).ie = s.ie := rfl
@[simp] theorem setReg_status : (s.setReg i v).status = s.status := rfl
@[simp] theorem setReg_mem : (s.setReg i v).mem = s.mem := rfl
@[simp] theorem setReg_out : (s.setReg i v).out = s.out := rfl
@[simp] theorem setReg_cfg : (s.setReg i v).cfg = s.cfg := rfl
@[simp] theorem setReg_ticks : (s.setReg i v).ticks = s.ticks := rfl

/-- A register read after a register write (10_state.md R21). -/
theorem reg_setReg : (s.setReg i v).reg j = if j = i then v else s.reg j := by
  unfold State.setReg State.reg
  by_cases h : j = i
  · subst h; simp
  · rw [if_neg h]
    exact Vector.getElem_set_ne i.isLt j.isLt fun h' => h (Fin.ext h'.symm)

@[simp] theorem reg_setReg_same : (s.setReg i v).reg i = v := by rw [reg_setReg, if_pos rfl]

theorem reg_setReg_ne {s : State} {i j : Fin 8} {v : Byte} (h : j ≠ i) : (s.setReg i v).reg j = s.reg j := by
  rw [reg_setReg, if_neg h]

theorem sp_eq : s.sp = s.reg regSP := rfl

/-! ### updates of the other fields do not touch the registers -/

@[simp] theorem reg_withPc : ({ s with pc := n } : State).reg i = s.reg i := rfl
@[simp] theorem reg_withFl : ({ s with fl := v } : State).reg i = s.reg i := rfl
@[simp] theorem reg_withIe (b : Bool) : ({ s with ie := b } : State).reg i = s.reg i := rfl
@[simp] theorem reg_withStatus (st : Status) : ({ s with status := st } : State).reg i = s.reg i := rfl
@[simp] theorem reg_withMem (m : Memory) : ({ s with mem := m } : State).reg i = s.reg i := rfl
@[simp] theorem reg_withOut (o : List Event) : ({ s with out := o } : State).reg i = s.reg i := rfl
@[simp] theorem reg_withTicks (t : TickSource) : ({ s with ticks := t } : State).reg i = s.reg i := rfl

/-! ### advance and setPc -/

@[simp] theorem advance_reg : (advance n s).reg i = s.reg i := rfl
@[simp] theorem advance_pc : (advance n s).pc = s.pc + n := rfl
@[simp] theorem advance_fl : (advance n s).fl = s.fl := rfl
@[simp] theorem advance_ie : (advance n s).ie = s.ie := rfl
@[simp] theorem advance_status : (advance n s).status = s.status := rfl
@[simp] theorem advance_mem : (advance n s).mem = s.mem := rfl
@[simp] theorem advance_out : (advance n s).out = s.out := rfl
@[simp] theorem advance_cfg : (advance n s).cfg = s.cfg := rfl
@[simp] theorem advance_ticks : (advance n s).ticks = s.ticks := rfl

@[simp] theorem setPc_reg : (setPc n s).reg i = s.reg i := rfl
@[simp] theorem setPc_pc : (setPc n s).pc = n := rfl
@[simp] theorem setPc_fl : (setPc n s).fl = s.fl := rfl
@[simp] theorem setPc_ie : (setPc n s).ie = s.ie := rfl
@[simp] theorem setPc_status : (setPc n s).status = s.status := rfl
@[simp] theorem setPc_mem : (setPc n s).mem = s.mem := rfl
@[simp] theorem setPc_out : (setPc n s).out = s.out := rfl
@[simp] theorem setPc_cfg : (setPc n s).cfg = s.cfg := rfl
@[simp] theorem setPc_ticks : (setPc n s).ticks = s.ticks := rfl

/-! ### emit, halt and raise -/

@[simp] theorem emit_reg : (emit e s).reg i = s.reg i := rfl
@[simp] theorem emit_pc : (emit e s).pc = s.pc := rfl
@[simp] theorem emit_fl : (emit e s).fl = s.fl := rfl
@[simp] theorem emit_ie : (emit e s).ie = s.ie := rfl
@[simp] theorem emit_status : (emit e s).status = s.status := rfl
@[simp] theorem emit_mem : (emit e s).mem = s.mem := rfl
@[simp] theorem emit_out : (emit e s).out = s.out ++ [e] := rfl
@[simp] theorem emit_cfg : (emit e s).cfg = s.cfg := rfl
@[simp] theorem emit_ticks : (emit e s).ticks = s.ticks := rfl

@[simp] theorem halt_reg : (halt c s).reg i = s.reg i := rfl
@[simp] theorem halt_pc : (halt c s).pc = s.pc := rfl
@[simp] theorem halt_fl : (halt c s).fl = s.fl := rfl
@[simp] theorem halt_ie : (halt c s).ie = s.ie := rfl
@[simp] theorem halt_status : (halt c s).status = .halted c := rfl
@[simp] theorem halt_mem : (halt c s).mem = s.mem := rfl
@[simp] theorem halt_out : (halt c s).out = s.out := rfl
@[simp] theorem halt_cfg : (halt c s).cfg = s.cfg := rfl
@[simp] theorem halt_ticks : (halt c s).ticks = s.ticks := rfl

@[simp] theorem raise_reg : (raise f s).reg i = s.reg i := rfl
@[simp] theorem raise_pc : (raise f s).pc = s.pc := rfl
@[simp] theorem raise_fl : (raise f s).fl = s.fl := rfl
@[simp] theorem raise_ie : (raise f s).ie = s.ie := rfl
@[simp] theorem raise_status : (raise f s).status = .faulted f := rfl
@[simp] theorem raise_mem : (raise f s).mem = s.mem := rfl
@[simp] theorem raise_out : (raise f s).out = s.out ++ f.events := rfl
@[simp] theorem raise_cfg : (raise f s).cfg = s.cfg := rfl
@[simp] theorem raise_ticks : (raise f s).ticks = s.ticks := rfl

/-! ### storeByte -/

@[simp] theorem storeByte_reg : (storeByte a v s).reg i = s.reg i := rfl
@[simp] theorem storeByte_pc : (storeByte a v s).pc = s.pc := rfl
@[simp] theorem storeByte_fl : (storeByte a v s).fl = s.fl := rfl
@[simp] theorem storeByte_ie : (storeByte a v s).ie = s.ie := rfl
@[simp] theorem storeByte_status : (storeByte a v s).status = s.status := rfl
@[simp] theorem storeByte_mem : (storeByte a v s).mem = s.mem.write a.toNat v := rfl
@[simp] theorem storeByte_out : (storeByte a v s).out = s.out := rfl
@[simp] theorem storeByte_cfg : (storeByte a v s).cfg = s.cfg := rfl
@[simp] theorem storeByte_ticks : (storeByte a v s).ticks = s.ticks := rfl

end Sys2Proof.Machine
end

