-- ==== Sys2Proof/Laws/Ops.lean ====
section
/-! SUPPORT. What each shared operation does, said once: the register checks, the stack, interrupt entry and
return, the timer. -/

namespace Sys2Proof.Machine

variable {s t : State} {a b v : Byte} {n : Nat} {i j : Fin 8} {f : CoreFault} {k : Fin 8 → Result}
  {kk : Fin 8 → Fin 8 → Result} {rs : List (Fin 8)}

/-! ### Memory primitives -/

/-- MemRead and MemWrite agree with the byte-address accesses, which never raise (20_memory.md R51). -/
theorem memRead_byte : memRead a.toNat s = .ok (loadByte a s) := by
  simp [memRead, loadByte, Nat.le_of_lt_succ a.isLt]

theorem memWrite_byte : memWrite a.toNat v s = .ok (storeByte a v s) := by
  simp [memWrite, storeByte, Nat.le_of_lt_succ a.isLt]

theorem storeByte_wf (h : s.mem.wf = true) : (storeByte a v s).mem.wf = true :=
  Memory.write_wf h (Nat.le_of_lt_succ a.isLt)

/-! ### Operand forms -/

/-- The slot a legal register byte names. -/
def slot (a : Byte) (h : a.toNat ≤ 7) : Fin 8 := ⟨a.toNat, Nat.lt_succ_of_le h⟩

theorem checkReg_ok (h : a.toNat ≤ 7) : checkReg a = .ok (slot a h) := dif_pos h

theorem checkReg_bad (h : 7 < a.toNat) : checkReg a = .error (.registerIndexFault a) :=
  dif_neg (by omega)

theorem withReg_ok (h : a.toNat ≤ 7) : withReg a s k = k (slot a h) := by
  rw [withReg, checkReg_ok h]

theorem withReg_bad (h : 7 < a.toNat) : withReg a s k = .next (raise (.registerIndexFault a) s) := by
  rw [withReg, checkReg_bad h]

/-- Everything a one-register form can do. -/
theorem withReg_cases :
    (∃ h : a.toNat ≤ 7, withReg a s k = k (slot a h)) ∨
    (7 < a.toNat ∧ withReg a s k = .next (raise (.registerIndexFault a) s)) := by
  by_cases h : a.toNat ≤ 7
  · exact .inl ⟨h, withReg_ok h⟩
  · exact .inr ⟨by omega, withReg_bad (by omega)⟩

theorem withRegs_ok (ha : a.toNat ≤ 7) (hb : b.toNat ≤ 7) :
    withRegs a b s kk = kk (slot a ha) (slot b hb) := by
  rw [withRegs, withReg_ok ha, withReg_ok hb]

/-- Everything a two-register form can do: the first bad operand is the one reported. -/
theorem withRegs_cases :
    (∃ (ha : a.toNat ≤ 7) (hb : b.toNat ≤ 7), withRegs a b s kk = kk (slot a ha) (slot b hb)) ∨
    (7 < a.toNat ∧ withRegs a b s kk = .next (raise (.registerIndexFault a) s)) ∨
    (a.toNat ≤ 7 ∧ 7 < b.toNat ∧ withRegs a b s kk = .next (raise (.registerIndexFault b) s)) := by
  by_cases ha : a.toNat ≤ 7
  · by_cases hb : b.toNat ≤ 7
    · exact .inl ⟨ha, hb, withRegs_ok ha hb⟩
    · exact .inr (.inr ⟨ha, by omega, by rw [withRegs, withReg_ok ha, withReg_bad (by omega)]⟩)
  · exact .inr (.inl ⟨by omega, withReg_bad (by omega)⟩)

/-! ### The stack -/

@[simp] theorem push_pc : (push v s).pc = s.pc := rfl
@[simp] theorem push_fl : (push v s).fl = s.fl := rfl
@[simp] theorem push_ie : (push v s).ie = s.ie := rfl
@[simp] theorem push_status : (push v s).status = s.status := rfl
@[simp] theorem push_out : (push v s).out = s.out := rfl
@[simp] theorem push_cfg : (push v s).cfg = s.cfg := rfl
@[simp] theorem push_ticks : (push v s).ticks = s.ticks := rfl
@[simp] theorem push_mem : (push v s).mem = s.mem.write (s.sp - 1).toNat v := rfl
@[simp] theorem push_sp : (push v s).sp = s.sp - 1 := by simp [push, sp_eq, pushAddr]

theorem push_reg (h : j ≠ regSP) : (push v s).reg j = s.reg j := by
  simp [push, reg_setReg_ne h]

theorem push_wf (h : s.mem.wf = true) : (push v s).mem.wf = true := storeByte_wf (by exact h)

@[simp] theorem popState_pc : (popState s).pc = s.pc := rfl
@[simp] theorem popState_fl : (popState s).fl = s.fl := rfl
@[simp] theorem popState_ie : (popState s).ie = s.ie := rfl
@[simp] theorem popState_status : (popState s).status = s.status := rfl
@[simp] theorem popState_mem : (popState s).mem = s.mem := rfl
@[simp] theorem popState_out : (popState s).out = s.out := rfl
@[simp] theorem popState_cfg : (popState s).cfg = s.cfg := rfl
@[simp] theorem popState_ticks : (popState s).ticks = s.ticks := rfl
@[simp] theorem popState_sp : (popState s).sp = s.sp + 1 := by simp [popState, sp_eq]

theorem popState_reg (h : j ≠ regSP) : (popState s).reg j = s.reg j := by
  simp [popState, reg_setReg_ne h]

@[simp] theorem popReg_pc : (popReg i s).pc = s.pc := rfl
@[simp] theorem popReg_fl : (popReg i s).fl = s.fl := rfl
@[simp] theorem popReg_ie : (popReg i s).ie = s.ie := rfl
@[simp] theorem popReg_status : (popReg i s).status = s.status := rfl
@[simp] theorem popReg_mem : (popReg i s).mem = s.mem := rfl
@[simp] theorem popReg_out : (popReg i s).out = s.out := rfl
@[simp] theorem popReg_cfg : (popReg i s).cfg = s.cfg := rfl
@[simp] theorem popReg_ticks : (popReg i s).ticks = s.ticks := rfl

theorem popReg_same : (popReg i s).reg i = popValue s := by simp [popReg]

theorem popReg_reg (h : j ≠ i) (hs : j ≠ regSP) : (popReg i s).reg j = s.reg j := by
  rw [popReg, reg_setReg_ne h, popState_reg hs]

theorem popReg_sp (h : i ≠ regSP) : (popReg i s).sp = s.sp + 1 := by
  rw [popReg, sp_eq, reg_setReg_ne h.symm, ← sp_eq, popState_sp]

theorem popValue_eq : popValue s = s.mem.read s.sp.toNat := rfl

/-- A pop after a push returns the value pushed (43_stack.md R160, R161). -/
theorem popValue_push (h : s.mem.wf = true) : popValue (push v s) = v := by
  rw [popValue_eq, push_sp, push_mem, Memory.read_write_same h]

/-! ### Pushing and popping lists of registers -/

@[simp] theorem pushRegs_nil : pushRegs [] s = s := rfl
theorem pushRegs_cons : pushRegs (i :: rs) s = pushRegs rs (push (s.reg i) s) := rfl
@[simp] theorem popRegs_nil : popRegs [] s = s := rfl
theorem popRegs_cons : popRegs (i :: rs) s = popRegs rs (popReg i s) := rfl

/-- What pushing registers leaves alone. -/
theorem pushRegs_fields :
    (pushRegs rs s).pc = s.pc ∧ (pushRegs rs s).fl = s.fl ∧ (pushRegs rs s).ie = s.ie ∧
    (pushRegs rs s).status = s.status ∧ (pushRegs rs s).out = s.out ∧ (pushRegs rs s).cfg = s.cfg ∧
    (pushRegs rs s).ticks = s.ticks ∧ (∀ r, r ≠ regSP → (pushRegs rs s).reg r = s.reg r) ∧
    (s.mem.wf = true → (pushRegs rs s).mem.wf = true) := by
  induction rs generalizing s with
  | nil => simp
  | cons i rs ih =>
    obtain ⟨h1, h2, h3, h4, h5, h6, h7, h8, h9⟩ := ih (s := push (s.reg i) s)
    exact ⟨h1, h2, h3, h4, h5, h6, h7, fun r hr => (h8 r hr).trans (push_reg hr), fun h => h9 (push_wf h)⟩

/-- What popping registers leaves alone. -/
theorem popRegs_fields :
    (popRegs rs s).pc = s.pc ∧ (popRegs rs s).fl = s.fl ∧ (popRegs rs s).ie = s.ie ∧
    (popRegs rs s).status = s.status ∧ (popRegs rs s).out = s.out ∧ (popRegs rs s).cfg = s.cfg ∧
    (popRegs rs s).ticks = s.ticks ∧ (popRegs rs s).mem = s.mem ∧
    (∀ r, r ≠ regSP → r ∉ rs → (popRegs rs s).reg r = s.reg r) := by
  induction rs generalizing s with
  | nil => simp
  | cons i rs ih =>
    obtain ⟨h1, h2, h3, h4, h5, h6, h7, h8, h9⟩ := ih (s := popReg i s)
    refine ⟨h1, h2, h3, h4, h5, h6, h7, h8, fun r hr hmem => ?_⟩
    rw [List.mem_cons, not_or] at hmem
    exact (h9 r hr hmem.2).trans (popReg_reg hmem.1 hr)

theorem pushRegs_sp : (pushRegs rs s).sp = s.sp - BitVec.ofNat 8 rs.length := by
  induction rs generalizing s with
  | nil => simp
  | cons i rs ih =>
    rw [pushRegs_cons, ih, push_sp, List.length_cons, BitVec.ofNat_add]
    simp only [BitVec.sub_eq_add_neg, BitVec.neg_add]
    ac_rfl

theorem popRegs_sp (h : regSP ∉ rs) : (popRegs rs s).sp = s.sp + BitVec.ofNat 8 rs.length := by
  induction rs generalizing s with
  | nil => simp
  | cons i rs ih =>
    rw [List.mem_cons, not_or] at h
    rw [popRegs_cons, ih h.2, popReg_sp (Ne.symm h.1), List.length_cons, BitVec.ofNat_add]
    ac_rfl

/-! ### Interrupt entry and return -/

/-- Everything an entry can do. -/
theorem enterInterrupt_cases :
    (255 < s.pc ∧ enterInterrupt i s = .error (.addressError s.pc)) ∨
    (s.pc ≤ 255 ∧ enterInterrupt i s = .ok (entryState i s)) := by
  unfold enterInterrupt
  split
  · exact .inl ⟨by omega, rfl⟩
  · exact .inr ⟨by omega, rfl⟩

/-- What pushing the frame leaves alone, and where SP ends (60_exceptions.md R211, R212). -/
theorem pushFrame_fields :
    (pushFrame s).ie = s.ie ∧ (pushFrame s).fl = s.fl ∧ (pushFrame s).status = s.status ∧
    (pushFrame s).out = s.out ∧ (pushFrame s).cfg = s.cfg ∧ (pushFrame s).ticks = s.ticks ∧
    (∀ r, r ≠ regSP → (pushFrame s).reg r = s.reg r) ∧ (pushFrame s).sp = s.sp - 9 ∧
    (s.mem.wf = true → (pushFrame s).mem.wf = true) := by
  obtain ⟨-, h2, h3, h4, h5, h6, h7, h8, h9⟩ :=
    pushRegs_fields (rs := savedRegs) (s := push s.fl (push (BitVec.ofNat 8 s.pc) s))
  simp only [push_fl, push_ie, push_status, push_out, push_cfg, push_ticks] at h2 h3 h4 h5 h6 h7
  unfold pushFrame
  refine ⟨h3, h2, h4, h5, h6, h7, fun r hr => ?_, ?_, fun h => h9 (push_wf (push_wf h))⟩
  · rw [h8 r hr, push_reg hr, push_reg hr]
  · rw [pushRegs_sp, push_sp, push_sp, savedRegs]
    simp only [BitVec.sub_eq_add_neg, BitVec.add_assoc, List.length_cons, List.length_nil]
    rfl

/-- What the first writes of an entry leave alone (60_exceptions.md R211). -/
theorem entryGate_fields :
    (entryGate i s).pc = s.pc ∧ (entryGate i s).ie = false ∧ (entryGate i s).fl = s.fl ∧
    (entryGate i s).status = s.status ∧ (entryGate i s).out = s.out ∧ (entryGate i s).cfg = s.cfg ∧
    (entryGate i s).ticks = s.ticks ∧ (entryGate i s).mem = s.mem ∧
    (entryGate i s).reg regIS = clearLine i (s.reg regIS) ∧
    (∀ r, r ≠ regIS → (entryGate i s).reg r = s.reg r) := by
  refine ⟨rfl, rfl, rfl, rfl, rfl, rfl, rfl, rfl, ?_, fun r hr => ?_⟩
  · rw [entryGate, reg_setReg_same]
  · rw [entryGate, reg_setReg_ne hr, reg_withIe]

/-- What an entry does to everything but PC and memory (60_exceptions.md R211). -/
theorem entryState_fields :
    (entryState i s).ie = false ∧ (entryState i s).fl = s.fl ∧ (entryState i s).status = s.status ∧
    (entryState i s).out = s.out ∧ (entryState i s).cfg = s.cfg ∧ (entryState i s).ticks = s.ticks ∧
    (entryState i s).reg regIS = clearLine i (s.reg regIS) ∧ (entryState i s).sp = s.sp - 9 ∧
    (∀ r, r ≠ regSP → r ≠ regIS → (entryState i s).reg r = s.reg r) ∧
    (entryState i s).pc ≤ 255 ∧ (s.mem.wf = true → (entryState i s).mem.wf = true) := by
  obtain ⟨h1, h2, h3, h4, h5, h6, h7, h8, h9⟩ := pushFrame_fields (s := entryGate i s)
  obtain ⟨-, g2, g3, g4, g5, g6, g7, g8, g9, g10⟩ := entryGate_fields (i := i) (s := s)
  rw [g8] at h9
  rw [sp_eq, sp_eq, g10 regSP (by decide)] at h8
  simp only [entryState, vectorTo, setPc_ie, setPc_fl, setPc_status, setPc_out, setPc_cfg, setPc_ticks,
    setPc_reg, setPc_pc, setPc_mem, sp_eq]
  refine ⟨h1.trans g2, h2.trans g3, h3.trans g4, h4.trans g5, h5.trans g6, h6.trans g7, ?_, h8,
    fun r hr hr' => ?_, Nat.le_of_lt_succ (BitVec.isLt _), h9⟩
  · rw [h7 _ (by decide), g9]
  · rw [h7 _ hr, g10 _ hr']

/-- What IRET does to everything but the registers, FL and PC (45_iret.md R190). -/
theorem returnFromInterrupt_fields :
    (returnFromInterrupt s).ie = true ∧ (returnFromInterrupt s).status = s.status ∧
    (returnFromInterrupt s).out = s.out ∧ (returnFromInterrupt s).cfg = s.cfg ∧
    (returnFromInterrupt s).ticks = s.ticks ∧ (returnFromInterrupt s).mem = s.mem ∧
    (returnFromInterrupt s).pc ≤ 255 := by
  obtain ⟨-, -, -, h4, h5, h6, h7, h8, -⟩ := popRegs_fields (rs := restoredRegs) (s := s)
  simp only [returnFromInterrupt, setPc_status, setPc_out, setPc_cfg, setPc_ticks, setPc_mem, setPc_pc,
    popState_status, popState_out, popState_cfg, popState_ticks, popState_mem]
  exact ⟨trivial, h4, h5, h6, h7, h8, Nat.le_of_lt_succ (BitVec.isLt _)⟩

/-! ### The timer and the interrupt check -/

/-- What step 1 leaves alone (60_exceptions.md R215). -/
theorem afterTimer_fields :
    (afterTimer s).pc = s.pc ∧ (afterTimer s).fl = s.fl ∧ (afterTimer s).status = s.status ∧
    (afterTimer s).mem = s.mem ∧ (afterTimer s).out = s.out ∧ (afterTimer s).cfg = s.cfg ∧
    (afterTimer s).ticks = s.ticks.rest ∧ (∀ r, r ≠ regIS → (afterTimer s).reg r = s.reg r) := by
  unfold afterTimer timerTick
  split
  · exact ⟨rfl, rfl, rfl, rfl, rfl, rfl, rfl, fun r hr => reg_setReg_ne (s := { s with ticks := s.ticks.rest }) hr⟩
  · exact ⟨rfl, rfl, rfl, rfl, rfl, rfl, rfl, fun r _ => rfl⟩

/-- Everything step 2 can do: nothing, an entry, or the entry's fault. -/
theorem interruptStep_cases :
    interruptStep s = .ok s ∨
    (255 < s.pc ∧ interruptStep s = .error (.addressError s.pc)) ∨
    (s.pc ≤ 255 ∧ ∃ i, interruptStep s = .ok (entryState i s)) := by
  unfold interruptStep interruptCheck
  split
  · split
    · exact .inl rfl
    · rcases enterInterrupt_cases (s := s) with h | h
      · exact .inr (.inl h)
      · exact .inr (.inr ⟨h.1, _, h.2⟩)
  · exact .inl rfl

end Sys2Proof.Machine
end

