-- ==== Sys2Proof/Laws/Step.lean ====
section
/-! SUPPORT. What fetch, a meaning's shape and one step can do, said once. -/

namespace Sys2Proof.Machine

variable {s t u : State} {i : Instr} {a b : Byte} {n p : Nat} {f : CoreFault}

/-! ### Fetch -/

theorem fetchWindow_zero : fetchWindow p 0 s = [] := rfl

theorem fetchWindow_in (h : p ≤ 255) : fetchWindow p (n + 1) s = s.mem.read p :: fetchWindow (p + 1) n s := by
  simp [fetchWindow, memRead, h]

theorem fetchWindow_out (h : 255 < p) : fetchWindow p n s = [] := by
  cases n with
  | zero => rfl
  | succ n => simp [fetchWindow, memRead, show ¬ p ≤ 255 by omega]

/-- The window at PC, by where PC stands. -/
theorem window_cases :
    (255 < s.pc ∧ s.window = []) ∨
    (s.pc = 255 ∧ s.window = [s.mem.read s.pc]) ∨
    (s.pc = 254 ∧ s.window = [s.mem.read s.pc, s.mem.read (s.pc + 1)]) ∨
    (s.pc ≤ 253 ∧ s.window = [s.mem.read s.pc, s.mem.read (s.pc + 1), s.mem.read (s.pc + 2)]) := by
  unfold State.window
  by_cases h0 : 255 < s.pc
  · exact .inl ⟨h0, fetchWindow_out h0⟩
  · rw [fetchWindow_in (by omega)]
    by_cases h1 : s.pc = 255
    · exact .inr (.inl ⟨h1, by rw [fetchWindow_out (by omega)]⟩)
    · rw [fetchWindow_in (by omega)]
      by_cases h2 : s.pc = 254
      · exact .inr (.inr (.inl ⟨h2, by rw [fetchWindow_out (by omega)]⟩))
      · exact .inr (.inr (.inr ⟨by omega, by rw [fetchWindow_in (by omega), fetchWindow_zero]⟩))

/-! ### The shapes of the meanings -/

theorem jumpIf_ok {c : Byte → Bool} (h : a.toNat ≤ 7) :
    jumpIf c a s = .next (setPc (if c s.fl then (s.reg (slot a h)).toNat else s.pc + 2) s) := withReg_ok h

theorem binaryAlu_ok {g : Byte → Byte → Byte} (ha : a.toNat ≤ 7) (hb : b.toNat ≤ 7) :
    binaryAlu g a b s =
      .next (advance 3 (s.setReg (slot a ha) (g (s.reg (slot a ha)) (s.reg (slot b hb))))) :=
  withRegs_ok ha hb

theorem unaryAlu_ok {g : Byte → Byte} (ha : a.toNat ≤ 7) :
    unaryAlu g a s = .next (advance 2 (s.setReg (slot a ha) (g (s.reg (slot a ha))))) := withReg_ok ha

theorem divideAlu_ok {g : Byte → Byte → Byte} (ha : a.toNat ≤ 7) (hb : b.toNat ≤ 7) :
    divideAlu g a b s =
      if s.reg (slot b hb) = 0 then .next (advance 3 (halt .divByZero (emit (.diag .divByZero) s)))
      else .next (advance 3 (s.setReg (slot a ha) (g (s.reg (slot a ha)) (s.reg (slot b hb))))) :=
  withRegs_ok ha hb

/-! ### One step -/

theorem step_running (h : s.status = .running) : step s = cycle s := by rw [step, h]

/-- Everything a step that answers a next state can be: the fault of an entry, the fault of a fetch, or the
fetched instruction (40_dispatch.md R100). -/
theorem step_cases (h : step s = .next u) :
    s.status = .running ∧
    ((∃ f, beforeFetch s = .error f ∧ u = raise f (afterTimer s)) ∨
     (∃ t f, beforeFetch s = .ok t ∧ fetch t = .error f ∧ u = raise f t) ∨
     (∃ t i, beforeFetch s = .ok t ∧ fetch t = .ok i ∧ exec i t = .next u)) := by
  unfold step at h
  split at h
  · refine ⟨‹_›, ?_⟩
    unfold cycle at h
    split at h
    · exact .inl ⟨_, ‹_›, by simpa using h.symm⟩
    · split at h
      · exact .inr (.inl ⟨_, _, ‹_›, ‹_›, by simpa using h.symm⟩)
      · exact .inr (.inr ⟨_, _, ‹_›, ‹_›, h⟩)
  · cases h
  · cases h

end Sys2Proof.Machine
end

