-- ==== Sys2Proof/Laws/Exec.lean ====
section
/-! SUPPORT. What the dispatcher can answer, said once: one constructor of `Effect` per shape of meaning. A claim
over all instructions is a case analysis of `exec_effect`, without unfolding a meaning. -/

namespace Sys2Proof.Machine

/-- The next states `exec` can answer for an instruction in a state. -/
inductive Effect : Instr → State → State → Prop where
  /-- the first register operand over 7 is reported -/
  | badRegister {i s r} : i.wf = false →
      i.registerOperands.find? (fun r => decide (7 < r.toNat)) = some r →
      Effect i s (raise (.registerIndexFault r) s)
  | hlt {s} : Effect .hlt s (advance 1 (halt .hlt s))
  | ret {s} : Effect .ret s (setPc (popValue s).toNat (popState s))
  | iret {s} : Effect .iret s (returnFromInterrupt s)
  | push {s a} (h : a.toNat ≤ 7) : Effect (.push a) s (advance 2 (push (s.reg (slot a h)) s))
  | pop {s a} (h : a.toNat ≤ 7) : Effect (.pop a) s (advance 2 (popReg (slot a h) s))
  | prn {s a} (h : a.toNat ≤ 7) : Effect (.prn a) s (advance 2 (emit (.out (s.reg (slot a h))) s))
  | callFault {s a} : a.toNat ≤ 7 → 255 < s.pc + 2 →
      Effect (.call a) s (raise (.addressError (s.pc + 2)) s)
  | call {s a} (h : a.toNat ≤ 7) : s.pc + 2 ≤ 255 →
      Effect (.call a) s (setPc (s.reg (slot a h)).toNat (push (BitVec.ofNat 8 (s.pc + 2)) s))
  | jump {i s} (a : Byte) (n : Nat) :
      i ∈ [Instr.jmp a, .jeq a, .jne a, .jgt a, .jlt a, .jle a, .jge a] → n ≤ 255 ∨ n = s.pc + 2 →
      Effect i s (setPc n s)
  | unary {i s} (a v : Byte) (h : a.toNat ≤ 7) : i ∈ [Instr.inc a, .dec a, .not a] →
      Effect i s (advance 2 (s.setReg (slot a h) v))
  | binary {i s} (a b v : Byte) (h : a.toNat ≤ 7) :
      i ∈ [Instr.ldi a b, .add a b, .sub a b, .mul a b, .div a b, .mod a b, .and a b, .or a b, .xor a b,
        .shl a b, .shr a b] →
      Effect i s (advance 3 (s.setReg (slot a h) v))
  | divideByZero {i s} (a b : Byte) : i = .div a b ∨ i = .mod a b →
      Effect i s (advance 3 (halt .divByZero (emit (.diag .divByZero) s)))
  | cmp {s a b} (v : Byte) : Effect (.cmp a b) s (advance 3 { s with fl := v })

variable {i : Instr} {s t : State} {a b : Byte} {k : Fin 8 → Result} {kk : Fin 8 → Fin 8 → Result}

theorem next_effect {x : State} (h : (.next x : Result) = .next t) (e : Effect i s x) : Effect i s t := by
  cases h; exact e

theorem withReg_effect (h : withReg a s k = .next t) (hi : i.registerOperands = [a])
    (hk : ∀ h' : a.toNat ≤ 7, k (slot a h') = .next t → Effect i s t) : Effect i s t := by
  rcases withReg_cases (a := a) (s := s) (k := k) with ⟨h', e⟩ | ⟨h', e⟩
  · exact hk h' (e ▸ h)
  · rw [e] at h
    refine next_effect h ?_
    exact .badRegister (by simp [Instr.wf, hi, h']) (by simp [hi, h'])

theorem withRegs_effect (h : withRegs a b s kk = .next t) (hi : i.registerOperands = [a, b])
    (hk : ∀ (ha : a.toNat ≤ 7) (hb : b.toNat ≤ 7), kk (slot a ha) (slot b hb) = .next t → Effect i s t) :
    Effect i s t := by
  rcases withRegs_cases (a := a) (b := b) (s := s) (kk := kk) with ⟨ha, hb, e⟩ | ⟨ha, e⟩ | ⟨ha, hb, e⟩
  · exact hk ha hb (e ▸ h)
  · rw [e] at h
    refine next_effect h ?_
    exact .badRegister (by simp [Instr.wf, hi, ha]) (by simp [hi, ha])
  · rw [e] at h
    refine next_effect h ?_
    exact .badRegister (by simp [Instr.wf, hi, ha, hb]) (by simp [hi, ha, hb])

theorem jumpIf_effect {c : Byte → Bool} (h : jumpIf c a s = .next t) (hi : i.registerOperands = [a])
    (hj : i ∈ [Instr.jmp a, .jeq a, .jne a, .jgt a, .jlt a, .jle a, .jge a]) : Effect i s t := by
  refine withReg_effect h hi fun _ h => ?_
  refine next_effect h (.jump a _ hj ?_)
  split
  · exact .inl (Nat.le_of_lt_succ (BitVec.isLt _))
  · exact .inr rfl

theorem unaryAlu_effect {g : Byte → Byte} (h : unaryAlu g a s = .next t) (hi : i.registerOperands = [a])
    (hj : i ∈ [Instr.inc a, .dec a, .not a]) : Effect i s t :=
  withReg_effect h hi fun ha h => next_effect h (.unary a _ ha hj)

theorem binaryAlu_effect {g : Byte → Byte → Byte} (h : binaryAlu g a b s = .next t)
    (hi : i.registerOperands = [a, b])
    (hj : i ∈ [Instr.ldi a b, .add a b, .sub a b, .mul a b, .div a b, .mod a b, .and a b, .or a b, .xor a b,
      .shl a b, .shr a b]) : Effect i s t :=
  withRegs_effect h hi fun ha _ h => next_effect h (.binary a b _ ha hj)

theorem divideAlu_effect {g : Byte → Byte → Byte} (h : divideAlu g a b s = .next t)
    (hi : i.registerOperands = [a, b]) (hj : i = .div a b ∨ i = .mod a b) : Effect i s t :=
  withRegs_effect h hi fun ha _ h => by
    split at h
    · exact next_effect h (.divideByZero a b hj)
    · exact next_effect h (.binary a b _ ha (by rcases hj with rfl | rfl <;> simp))

/-- Everything `exec` can do when it answers a next state. -/
theorem exec_effect (h : exec i s = .next t) : Effect i s t := by
  cases i with
  | hlt => exact next_effect h .hlt
  | ret => exact next_effect h .ret
  | iret => exact next_effect h .iret
  | push a => exact withReg_effect h rfl fun ha h => next_effect h (.push ha)
  | pop a => exact withReg_effect h rfl fun ha h => next_effect h (.pop ha)
  | prn a => exact withReg_effect h rfl fun ha h => next_effect h (.prn ha)
  | call a =>
    refine withReg_effect h rfl fun ha h => ?_
    split at h
    · exact next_effect h (.callFault ha (by omega))
    · exact next_effect h (.call ha (by omega))
  | jmp a =>
    exact withReg_effect h rfl fun _ h =>
      next_effect h (.jump a _ (by simp) (.inl (Nat.le_of_lt_succ (BitVec.isLt _))))
  | jeq a => exact jumpIf_effect h rfl (by simp)
  | jne a => exact jumpIf_effect h rfl (by simp)
  | jgt a => exact jumpIf_effect h rfl (by simp)
  | jlt a => exact jumpIf_effect h rfl (by simp)
  | jle a => exact jumpIf_effect h rfl (by simp)
  | jge a => exact jumpIf_effect h rfl (by simp)
  | inc a => exact unaryAlu_effect h rfl (by simp)
  | dec a => exact unaryAlu_effect h rfl (by simp)
  | not a => exact unaryAlu_effect h rfl (by simp)
  | ldi a v => exact withReg_effect h rfl fun ha h => next_effect h (.binary a v _ ha (by simp))
  | add a b => exact binaryAlu_effect h rfl (by simp)
  | sub a b => exact binaryAlu_effect h rfl (by simp)
  | mul a b => exact binaryAlu_effect h rfl (by simp)
  | div a b => exact divideAlu_effect h rfl (.inl rfl)
  | mod a b => exact divideAlu_effect h rfl (.inr rfl)
  | cmp a b => exact withRegs_effect h rfl fun _ _ h => next_effect h (.cmp _)
  | and a b => exact binaryAlu_effect h rfl (by simp)
  | or a b => exact binaryAlu_effect h rfl (by simp)
  | xor a b => exact binaryAlu_effect h rfl (by simp)
  | shl a b => exact binaryAlu_effect h rfl (by simp)
  | shr a b => exact binaryAlu_effect h rfl (by simp)

end Sys2Proof.Machine
end

