-- ==== Sys2Proof/Laws/PerInstr.lean ====
section
/-! SUPPORT. Statements made per instruction. EncodedLength: the encoder writes as many bytes as the format
says, `n + 1` (30_encoding.md R70, R71), under every opcode map. -/

namespace Sys2Proof.Laws.EncodedLength

/-- The encoded instruction is `Instr.length` bytes long. -/
def Statement (i : Instr) : Prop := ∀ m : OpcodeMap, (encode m i).length = i.length

theorem hlt : Statement .hlt := fun _ => rfl
theorem ret : Statement .ret := fun _ => rfl
theorem iret : Statement .iret := fun _ => rfl
theorem push (ra : Byte) : Statement (.push ra) := fun _ => rfl
theorem pop (ra : Byte) : Statement (.pop ra) := fun _ => rfl
theorem prn (ra : Byte) : Statement (.prn ra) := fun _ => rfl
theorem call (ra : Byte) : Statement (.call ra) := fun _ => rfl
theorem jmp (ra : Byte) : Statement (.jmp ra) := fun _ => rfl
theorem jeq (ra : Byte) : Statement (.jeq ra) := fun _ => rfl
theorem jne (ra : Byte) : Statement (.jne ra) := fun _ => rfl
theorem jgt (ra : Byte) : Statement (.jgt ra) := fun _ => rfl
theorem jlt (ra : Byte) : Statement (.jlt ra) := fun _ => rfl
theorem jle (ra : Byte) : Statement (.jle ra) := fun _ => rfl
theorem jge (ra : Byte) : Statement (.jge ra) := fun _ => rfl
theorem inc (ra : Byte) : Statement (.inc ra) := fun _ => rfl
theorem dec (ra : Byte) : Statement (.dec ra) := fun _ => rfl
theorem not (ra : Byte) : Statement (.not ra) := fun _ => rfl
theorem ldi (ra imm : Byte) : Statement (.ldi ra imm) := fun _ => rfl
theorem add (ra rb : Byte) : Statement (.add ra rb) := fun _ => rfl
theorem sub (ra rb : Byte) : Statement (.sub ra rb) := fun _ => rfl
theorem mul (ra rb : Byte) : Statement (.mul ra rb) := fun _ => rfl
theorem div (ra rb : Byte) : Statement (.div ra rb) := fun _ => rfl
theorem mod (ra rb : Byte) : Statement (.mod ra rb) := fun _ => rfl
theorem cmp (ra rb : Byte) : Statement (.cmp ra rb) := fun _ => rfl
theorem and (ra rb : Byte) : Statement (.and ra rb) := fun _ => rfl
theorem or (ra rb : Byte) : Statement (.or ra rb) := fun _ => rfl
theorem xor (ra rb : Byte) : Statement (.xor ra rb) := fun _ => rfl
theorem shl (ra rb : Byte) : Statement (.shl ra rb) := fun _ => rfl
theorem shr (ra rb : Byte) : Statement (.shr ra rb) := fun _ => rfl

end Sys2Proof.Laws.EncodedLength
end

