-- ==== Sys2Proof/Laws/Ticks.lean ====
section
/-! SUPPORT. The small lemmas of the tick input: drawing from a source, its schedule, and offering a tick. -/

namespace Sys2Proof.Machine

variable {b : Bool} {bs : List Bool} {l : TickTail} {k n : Nat} {s t : State} {c : TickSource} {σ τ : Nat → Bool}

/-! ### Drawing -/

@[simp] theorem TickSource.now_listed : TickSource.now ⟨b :: bs, l⟩ = b := rfl
@[simp] theorem TickSource.rest_listed : TickSource.rest ⟨b :: bs, l⟩ = ⟨bs, l⟩ := rfl
@[simp] theorem TickSource.now_always : TickSource.now ⟨[], .always b⟩ = b := rfl
@[simp] theorem TickSource.rest_always : TickSource.rest ⟨[], .always b⟩ = ⟨[], .always b⟩ := rfl
@[simp] theorem TickSource.now_free : TickSource.now ⟨[], .free k⟩ = Config.freeTick k := rfl
@[simp] theorem TickSource.rest_free : TickSource.rest ⟨[], .free k⟩ = ⟨[], .free (k + 1)⟩ := rfl

/-! ### The schedule of a source -/

@[simp] theorem TickSource.nth_zero : c.nth 0 = c.now := rfl
@[simp] theorem TickSource.nth_succ : c.nth (n + 1) = c.rest.nth n := rfl
@[simp] theorem TickSource.drop_zero : c.drop 0 = c := rfl
@[simp] theorem TickSource.drop_succ : c.drop (n + 1) = c.rest.drop n := rfl

/-- The schedule and the rest, seen from a later cycle. -/
theorem TickSource.now_drop : (c.drop n).now = c.nth n := by
  induction n generalizing c with
  | zero => rfl
  | succ n ih => exact ih

theorem TickSource.rest_drop : (c.drop n).rest = c.drop (n + 1) := by
  induction n generalizing c with
  | zero => rfl
  | succ n ih => exact ih

/-! ### Offering a tick -/

@[simp] theorem offerTick_now : (offerTick b s).ticks.now = b := rfl
@[simp] theorem offerTick_rest : (offerTick b s).ticks.rest = s.ticks := rfl
@[simp] theorem offerTick_status : (offerTick b s).status = s.status := rfl

/-! ### Runs -/

@[simp] theorem steps_zero : Steps 0 s t ↔ t = s :=
  ⟨fun h => by cases h; rfl, fun h => h ▸ .zero _⟩

@[simp] theorem runsUnder_zero : RunsUnder σ 0 s t ↔ t = s :=
  ⟨fun h => by cases h; rfl, fun h => h ▸ .zero _⟩

/-- A run of `n` steps reads the first `n` ticks of its schedule alone. -/
theorem RunsUnder.congr (h : RunsUnder σ n s t) (hσ : ∀ j, j < n → σ j = τ j) : RunsUnder τ n s t := by
  induction h with
  | zero => exact .zero _
  | succ h hs ih => exact .succ (ih fun j hj => hσ j (by omega)) (by rwa [← hσ _ (by omega)])

end Sys2Proof.Machine
end

