-- ==== Sys2Proof/Tests/Slice0.lean ====
section
/-! SUPPORT. The model's own tests. Expected results are taken from spec/95_test_vectors.md (the vector's number
stands in the test's comment) or written out from spec/30_encoding.md. The last part shows, for every obligation
with hypotheses, that they can be met together. -/

namespace Sys2Proof.Tests

open Sys2Proof.Machine

/-! ### Helpers -/

/-- A state with bytes placed at `p` and PC there. -/
def load (p : Nat) (bs : List Byte) (s : State) : State := { placeBytes p bs s with pc := p }

/-- A state with R0 and R1 set. -/
def regs2 (x y : Byte) : State := (State.reset.setReg 0 x).setReg 1 y

/-- What one step leaves of a state, if it answers one. -/
def after {α : Type} (s : State) (f : State → α) : Option α :=
  match step s with
  | .next t => some (f t)
  | .fault _ => none
  | .refused _ => none

/-- One tick at the next cycle. -/
def oneTick (s : State) : State := { s with ticks := { upcoming := [true], later := .always false } }

/-- R0, PC and STATUS after one step of an instruction at 0. -/
def alu (bs : List Byte) (x y : Byte) : Option (Byte × Nat × Status) :=
  after (load 0 bs (regs2 x y)) fun t => (t.reg 0, t.pc, t.status)

/-! ### Well-formedness: each check refuses an ill-formed term -/

theorem test_wf_refuses_bad_register : (Instr.inc 8).wf = false := by decide
theorem test_wf_refuses_bad_first : (Instr.add 255 0).wf = false := by decide
theorem test_wf_refuses_bad_second : (Instr.add 0 8).wf = false := by decide
theorem test_wf_refuses_bad_ldi : (Instr.ldi 9 0).wf = false := by decide
theorem test_wf_accepts : (Instr.add 7 0).wf = true ∧ (Instr.ldi 7 255).wf = true ∧ Instr.hlt.wf = true := by decide
theorem test_map_refuses_duplicate : ({ OpcodeMap.default with ret := 0x01 } : OpcodeMap).admissible = false := by
  decide
theorem test_map_refuses_wrong_count : ({ OpcodeMap.default with ret := 0x51 } : OpcodeMap).admissible = false := by
  decide

/-! ### Decoding: words written out from R78 (bits of the first byte lowest) -/

theorem test_decode_f0 :
    decodeTableWord 8 0b00000001 = some .hlt ∧
    decodeTableWord 8 0b00010001 = some .ret ∧
    decodeTableWord 8 0b00010011 = some .iret := by decide

theorem test_decode_f1r_stack_io :
    decodeTableWord 16 0b00000001_01000101 = some (.push 1) ∧
    decodeTableWord 16 0b00000010_01000110 = some (.pop 2) ∧
    decodeTableWord 16 0b00000011_01000111 = some (.prn 3) := by decide

theorem test_decode_f1r_control :
    decodeTableWord 16 0b00000001_01010000 = some (.call 1) ∧
    decodeTableWord 16 0b00000010_01010100 = some (.jmp 2) ∧
    decodeTableWord 16 0b00000010_01010101 = some (.jeq 2) ∧
    decodeTableWord 16 0b00000010_01010110 = some (.jne 2) ∧
    decodeTableWord 16 0b00000011_01010111 = some (.jgt 3) ∧
    decodeTableWord 16 0b00000011_01011000 = some (.jlt 3) ∧
    decodeTableWord 16 0b00000011_01011001 = some (.jle 3) ∧
    decodeTableWord 16 0b00000111_01011010 = some (.jge 7) := by decide

theorem test_decode_f1r_alu :
    decodeTableWord 16 0b00000010_01100101 = some (.inc 2) ∧
    decodeTableWord 16 0b00000010_01100110 = some (.dec 2) ∧
    decodeTableWord 16 0b11111111_01101001 = some (.not 255) := by decide

theorem test_decode_f2_arith :
    decodeTableWord 24 0b11111111_00000011_10000010 = some (.ldi 3 255) ∧
    decodeTableWord 24 0b00000001_00000000_10100000 = some (.add 0 1) ∧
    decodeTableWord 24 0b00000001_00000010_10100001 = some (.sub 2 1) ∧
    decodeTableWord 24 0b00000001_00000010_10100010 = some (.mul 2 1) ∧
    decodeTableWord 24 0b00000001_00000010_10100011 = some (.div 2 1) ∧
    decodeTableWord 24 0b00000001_00000010_10100100 = some (.mod 2 1) := by decide

theorem test_decode_f2_logic :
    decodeTableWord 24 0b00000001_00000010_10100111 = some (.cmp 2 1) ∧
    decodeTableWord 24 0b00000001_00000010_10101000 = some (.and 2 1) ∧
    decodeTableWord 24 0b00000001_00000010_10101010 = some (.or 2 1) ∧
    decodeTableWord 24 0b00000001_00000010_10101011 = some (.xor 2 1) ∧
    decodeTableWord 24 0b00000001_00000010_10101100 = some (.shl 2 1) ∧
    decodeTableWord 24 0b00000001_00000010_10101101 = some (.shr 2 1) := by decide

/-- NOP 0x00, LD 0x83, ST 0x84, PRA 0x48 and INT 0x52 are unknown (R80), and so is a count of 3 (V4). -/
theorem test_decode_unknown :
    decodeTableWord 8 0x00 = none ∧ decodeTableWord 24 0x83 = none ∧ decodeTableWord 24 0x84 = none ∧
    decodeTableWord 16 0x48 = none ∧ decodeTableWord 16 0x52 = none ∧ decodeTableWord 24 0xC0 = none := by decide

/-! ### Dispatch faults -/

/-- V5: the count 3 is checked before any operand fetch. -/
theorem test_count_three_at_top :
    after (load 255 [0xFF] State.reset) (fun t => (t.status, t.out)) =
      some (.faulted (.unknownOpcodeFault 0xFF 255), [.diag .unknownOpcode]) := by decide

/-- V6. -/
theorem test_unknown_zero :
    after { State.reset with pc := 7 } (fun t => (t.status, t.pc)) =
      some (.faulted (.unknownOpcodeFault 0 7), 7) := by decide

/-- V8: the operand fetch comes before the lookup. -/
theorem test_unknown_at_254_is_address_error :
    after (load 254 [0xA5] State.reset) (fun t => (t.status, t.out)) =
      some (.faulted (.addressError 256), []) := by decide

/-- V10. -/
theorem test_operand_past_top :
    after (load 255 [0x47] State.reset) (fun t => t.status) = some (.faulted (.addressError 256)) := by decide

/-- V11: the opcode fetch itself. -/
theorem test_pc_past_top :
    after { State.reset with pc := 256 } (fun t => (t.status, t.pc)) =
      some (.faulted (.addressError 256), 256) := by decide

/-- V14: `a` is checked before `b`. -/
theorem test_first_bad_register_reported :
    after (load 0 [0xA0, 9, 10] State.reset) (fun t => (t.status, t.pc)) =
      some (.faulted (.registerIndexFault 9), 0) := by decide

/-- V15. -/
theorem test_no_cycle_when_halted :
    step { State.reset with status := .halted .hlt } = .fault (.notRunning (.halted .hlt)) := rfl

/-! ### ALU -/

theorem test_add_wraps : alu [0xA0, 0, 1] 200 100 = some (44, 3, .running) := by decide      -- V21
theorem test_add_same_register : alu [0xA0, 0, 0] 128 0 = some (0, 3, .running) := by decide -- V23
theorem test_sub_wraps : alu [0xA1, 0, 1] 3 5 = some (254, 3, .running) := by decide         -- V25
theorem test_mul_wraps : alu [0xA2, 0, 1] 255 255 = some (1, 3, .running) := by decide       -- V30
theorem test_div : alu [0xA3, 0, 1] 7 2 = some (3, 3, .running) := by decide                 -- V33
theorem test_div_zero : alu [0xA3, 0, 1] 9 0 = some (9, 3, .halted .divByZero) := by decide  -- V36
theorem test_mod : alu [0xA4, 0, 1] 255 16 = some (15, 3, .running) := by decide             -- V41
theorem test_mod_zero : alu [0xA4, 0, 1] 9 0 = some (9, 3, .halted .divByZero) := by decide  -- V42
theorem test_inc_wraps : alu [0x65, 0] 255 0 = some (0, 2, .running) := by decide            -- V44
theorem test_dec_wraps : alu [0x66, 0] 0 0 = some (255, 2, .running) := by decide            -- V46
theorem test_not : alu [0x69, 0] 0x0F 0 = some (0xF0, 2, .running) := by decide              -- V48
theorem test_and : alu [0xA8, 0, 1] 0x0C 0x0A = some (0x08, 3, .running) := by decide        -- V50
theorem test_or : alu [0xAA, 0, 1] 0x0C 0x0A = some (0x0E, 3, .running) := by decide         -- V52
theorem test_xor : alu [0xAB, 0, 1] 0x3C 0xFF = some (0xC3, 3, .running) := by decide        -- V56
theorem test_shl : alu [0xAC, 0, 1] 0x81 1 = some (0x02, 3, .running) := by decide           -- V58
theorem test_shl_big : alu [0xAC, 0, 1] 0xFF 200 = some (0, 3, .running) := by decide        -- V61
theorem test_shr : alu [0xAD, 0, 1] 0x80 7 = some (1, 3, .running) := by decide              -- V65
theorem test_shr_big : alu [0xAD, 0, 1] 0xFF 8 = some (0, 3, .running) := by decide          -- V66

/-- V70: unsigned. -/
theorem test_cmp_unsigned :
    after (load 0 [0xA7, 0, 1] (regs2 0 128)) (fun t => (t.fl, t.reg 0, t.pc)) = some (4, 0, 3) := by decide

/-- V72: the old FL is discarded. -/
theorem test_cmp_discards :
    after (load 0 [0xA7, 0, 1] { regs2 5 5 with fl := 2 }) (fun t => t.fl) = some 1 := by decide

/-! ### Data, output and stack -/

/-- V82. -/
theorem test_ldi_sp : after (load 0 [0x82, 7, 0x80] State.reset) (fun t => (t.sp, t.pc)) = some (0x80, 3) := by
  decide

/-- V85. -/
theorem test_prn_sp : after (load 0 [0x47, 7] State.reset) (fun t => (t.out, t.pc)) = some ([.out 244], 2) := by
  decide

/-- V92: the push wraps into the vector table. -/
theorem test_push_wraps :
    after (load 0 [0x45, 0] ((regs2 9 0).setReg 7 0)) (fun t => (t.sp, t.mem.read 0xFF)) = some (0xFF, 9) := by
  decide

/-- V94. -/
theorem test_push_sp :
    after (load 0 [0x45, 7] State.reset) (fun t => (t.sp, t.mem.read 0xF3)) = some (0xF3, 0xF4) := by decide

/-- V91. -/
theorem test_pop :
    after (load 0 [0x46, 1] (placeBytes 0xF3 [42] (State.reset.setReg 7 0xF3)))
      (fun t => (t.reg 1, t.sp, t.mem.read 0xF3)) = some (42, 0xF4, 42) := by decide

/-- V95. -/
theorem test_pop_sp :
    after (load 0 [0x46, 7] (placeBytes 0xF4 [0x10] State.reset)) (fun t => t.sp) = some 0x10 := by decide

/-! ### Control transfer -/

/-- V101: the highest CALL. -/
theorem test_call_at_253 :
    after (load 253 [0x50, 1] State.reset) (fun t => (t.pc, t.sp, t.mem.read 0xF3)) = some (0, 0xF3, 255) := by
  decide

/-- V103: the target is read before the push. -/
theorem test_call_sp :
    after (load 0 [0x50, 7] State.reset) (fun t => (t.pc, t.sp, t.mem.read 0xF3)) = some (0xF4, 0xF3, 2) := by
  decide

/-- V104. -/
theorem test_ret :
    after (load 0 [0x11] (placeBytes 0xF3 [5] (State.reset.setReg 7 0xF3))) (fun t => (t.pc, t.sp)) =
      some (5, 0xF4) := by decide

/-- V106. -/
theorem test_jmp : after (load 3 [0x54, 1] (regs2 0 9)) (fun t => t.pc) = some 9 := by decide

/-- V108. -/
theorem test_hlt : after (load 8 [0x01] State.reset) (fun t => (t.status, t.pc)) = some (.halted .hlt, 9) := by
  decide

/-- PC after `Jcc R0` at 14 with R0 = 20, for the FL values 1, 2, 4, 0 and 3 (V110 to V114). -/
def jccPcs (op : Byte) : List (Option Nat) :=
  [1, 2, 4, 0, 3].map fun fl => after (load 14 [op, 0] { regs2 20 0 with fl := fl }) fun t => t.pc

theorem test_jeq : jccPcs 0x55 = [some 20, some 16, some 16, some 16, some 16] := by decide
theorem test_jne : jccPcs 0x56 = [some 16, some 20, some 20, some 20, some 20] := by decide
theorem test_jgt : jccPcs 0x57 = [some 16, some 20, some 16, some 16, some 16] := by decide
theorem test_jlt : jccPcs 0x58 = [some 16, some 16, some 20, some 16, some 16] := by decide
theorem test_jge : jccPcs 0x5A = [some 20, some 20, some 16, some 20, some 20] := by decide
theorem test_jle : jccPcs 0x59 = [some 20, some 16, some 20, some 20, some 20] := by decide

/-! ### Interrupts -/

/-- PC = 0x20 holds `LDI R0,1`, FL = 2, handlers at 0x40 and 0x43, with IM, IS and IE given (section 2.6). -/
def irq (im is : Byte) (ie : Bool) : State :=
  let s := placeBytes 0x40 [0x82, 4, 9, 0x82, 4, 8] (placeBytes 0xF8 [0x40, 0x43] State.reset)
  { load 0x20 [0x82, 0, 1] ((s.setReg 5 im).setReg 6 is) with fl := 2, ie := ie }

/-- V120: IE off, no entry. -/
theorem test_no_entry_when_gated :
    after (irq 1 1 false) (fun t => (t.reg 0, t.pc, t.reg 6)) = some (1, 0x23, 1) := by decide

/-- V121: a tick enters line 0 and the handler's first instruction runs in the same cycle. -/
theorem test_tick_enters :
    after (oneTick (irq 1 0 false)) (fun t => (t.reg 4, t.pc, t.sp, t.ie, t.reg 6)) =
      some (9, 0x43, 0xEB, false, 0) := by decide
theorem test_tick_frame :
    after (oneTick (irq 1 0 false)) (fun t => (t.mem.read 0xF3, t.mem.read 0xF2, t.mem.read 0xEC)) =
      some (0x20, 2, 1) := by decide

/-- V122: the lowest line of several. -/
theorem test_lowest_line :
    after (irq 6 6 true) (fun t => (t.reg 6, t.pc, t.reg 4)) = some (4, 0x46, 8) := by decide

/-- V124: nothing enabled is pending. -/
theorem test_masked : after (irq 1 2 true) (fun t => (t.ie, t.pc)) = some (true, 0x23) := by decide

/-- V125: TICK_SETS_IE off. -/
theorem test_tick_without_ie :
    after { oneTick (irq 1 0 false) with cfg := { Config.default with tickSetsIE := false } }
      (fun t => (t.reg 6, t.ie, t.pc)) = some (1, false, 0x23) := by decide

/-- V126: PC over 255 at entry. -/
theorem test_entry_past_top :
    after { irq 1 1 true with pc := 256 } (fun t => (t.status, t.ie, t.reg 6, t.sp)) =
      some (.faulted (.addressError 256), true, 1, 0xF4) := by decide

/-- V128: the frame wraps over the vector table. -/
theorem test_entry_wraps :
    after ((irq 3 3 true).setReg 7 4)
      (fun t => (t.sp, t.mem.read 3, t.mem.read 2, t.mem.read 0xFC, t.mem.read 0xFB)) =
      some (0xFB, 0x20, 2, 3, 2) := by decide

/-- V132 and V133: IRET with no frame pops what is there. -/
theorem test_iret :
    after (load 0 [0x13] (placeBytes 0xFA [6, 7, 8] State.reset))
      (fun t => (t.reg 0, t.fl, t.pc, t.sp, t.ie)) = some (6, 7, 8, 0xFD, true) := by decide

/-- V131: a tick pending in IS is lost at IRET. -/
theorem test_iret_restores_is :
    after (load 0 [0x13] (State.reset.setReg 6 1)) (fun t => t.reg 6) = some 0 := by decide

/-! ### The host's placement of a word -/

/-- A word placed at reset is the next instruction to run. -/
theorem test_fetch_word :
    step (State.reset.withFetchWord 24 0x080082) = exec (.ldi 0 8) (State.reset.withFetchWord 24 0x080082) := rfl

/-! ### Witnesses: the hypotheses of each obligation can be met -/

/-- A running state about to run `CALL R1` at 3. -/
def callState : State := load 3 [0x50, 1] (regs2 0 8)

theorem witness_ResetMeetsInvariant : Config.default.opcodeMap.admissible = true := by decide

theorem witness_DecodeOfEncode :
    OpcodeMap.default.admissible = true ∧
    ({ OpcodeMap.default with hlt := 0x00 } : OpcodeMap).admissible = true := by decide

theorem witness_DecodedBytesAreTheEncoding :
    decode OpcodeMap.default [0x82, 3, 255, 1] = .ok (.ldi 3 255, [1]) := by rfl

theorem witness_DecoderRefusesByName_count : countField 0xC0 = 3 ∧ countField 0xFF = 3 := by decide
theorem witness_DecoderRefusesByName_truncated : countField 0xA5 ≠ 3 ∧ [(3 : Byte)].length < countField 0xA5 := by
  decide
theorem witness_DecoderRefusesByName_unknown :
    countField 0xA5 ≠ 3 ∧ countField 0xA5 ≤ [(3 : Byte), 4].length ∧ ∀ k, OpcodeMap.default.byte k ≠ 0xA5 :=
  ⟨by decide, by decide, fun k => by cases k <;> decide⟩

theorem witness_StepRunsTheDecodedInstruction :
    callState.status = .running ∧ ∃ t, beforeFetch callState = .ok t ∧
      decode t.cfg.opcodeMap t.window = .ok (.call 1, [0]) := ⟨rfl, _, rfl, rfl⟩

/-- HLT in the last cell. -/
theorem witness_StepRunsTheBytesInMemory :
    (load 255 [0x01] State.reset).status = .running ∧
    ∃ t, beforeFetch (load 255 [0x01] State.reset) = .ok t ∧ t.cfg.opcodeMap.admissible = true ∧
      t.pc + Instr.hlt.length ≤ 256 ∧
      ∀ j (h : j < (encode t.cfg.opcodeMap .hlt).length),
        t.mem.read (t.pc + j) = (encode t.cfg.opcodeMap .hlt)[j] := by
  refine ⟨rfl, _, rfl, by decide, by decide, fun j h => ?_⟩
  obtain rfl : j = 0 := Nat.lt_one_iff.1 h
  rfl

theorem witness_QuietCycleFetchesAtPc_gated : (irq 1 1 false).ticks.now = false ∧ (irq 1 1 false).ie = false := by
  decide
theorem witness_QuietCycleFetchesAtPc_masked :
    (irq 1 2 true).ticks.now = false ∧ (irq 1 2 true).ie = true ∧
    (irq 1 2 true).reg regIM &&& (irq 1 2 true).reg regIS = 0 := by decide

theorem witness_UnknownOpcodeFaultsTheStep_count :
    ∃ t, beforeFetch (load 255 [0xFF] State.reset) = .ok t ∧ t.pc ≤ 255 ∧ t.mem.read t.pc = 0xFF ∧
      countField 0xFF = 3 := ⟨_, rfl, by decide, by decide, by decide⟩
theorem witness_UnknownOpcodeFaultsTheStep_lookup :
    ∃ t, beforeFetch (load 253 [0xA5] State.reset) = .ok t ∧ t.pc ≤ 255 ∧ t.mem.read t.pc = 0xA5 ∧
      t.pc + countField 0xA5 ≤ 255 ∧ ∀ k, t.cfg.opcodeMap.byte k ≠ 0xA5 :=
  ⟨_, rfl, by decide, by decide, by decide, fun k => by cases k <;> decide⟩

theorem witness_FetchPastTheTopFaults_opcode :
    ∃ t, beforeFetch { State.reset with pc := 256 } = .ok t ∧ 255 < t.pc := ⟨_, rfl, by decide⟩
theorem witness_FetchPastTheTopFaults_operand :
    ∃ t, beforeFetch (load 254 [0x82, 0] State.reset) = .ok t ∧ t.pc ≤ 255 ∧ countField (t.mem.read t.pc) ≠ 3 ∧
      255 < t.pc + countField (t.mem.read t.pc) := ⟨_, rfl, by decide, by decide, by decide⟩

theorem witness_RunningStateHasNextState : State.reset.status = .running := rfl
theorem witness_TerminalStateTakesNoCycle : ({ State.reset with status := .halted .hlt } : State).status ≠ .running := by
  decide

/-- The state of `callState` meets the invariant and its step answers a next state: the hypotheses of the
statements about one step. -/
theorem witness_StepKeepsInvariant : callState.Inv ∧ ∃ t, step callState = .next t :=
  ⟨⟨by decide, by decide, by decide, trivial⟩, _, rfl⟩
theorem witness_StepEmitsAtMostOneEvent : ∃ t, step (load 0 [0x47, 0] State.reset) = .next t := ⟨_, rfl⟩
theorem witness_StepConsumesOneTick : ∃ t, step (oneTick callState) = .next t := ⟨_, rfl⟩
theorem witness_StepReadsOnlyTheNextTick :
    ({ upcoming := [false, true], later := .free 0 } : TickSource).now = callState.ticks.now ∧
    ∃ t, step callState = .next t := ⟨rfl, _, rfl⟩
theorem witness_PcNeverPasses256 :
    (load 255 [0x01] State.reset).pc ≤ 256 ∧ ∃ t, step (load 255 [0x01] State.reset) = .next t ∧ t.pc = 256 :=
  ⟨by decide, _, rfl, rfl⟩

/-- PUSH answers a next state: the hypothesis of the statements about every instruction. -/
theorem witness_InstructionsWriteOnlyTheirRegisters : ∃ t, exec (.push 0) callState = .next t := ⟨_, rfl⟩
theorem witness_OnlyPushAndCallStore :
    callState.mem.wf = true ∧ (∃ t, exec (.push 0) callState = .next t) ∧
    (∃ t, exec (.add 0 1) callState = .next t) ∧ ∀ a, Instr.add 0 1 ≠ .push a ∧ Instr.add 0 1 ≠ .call a :=
  ⟨by decide, ⟨_, rfl⟩, ⟨_, rfl⟩, fun _ => ⟨nofun, nofun⟩⟩
theorem witness_OnlyCmpAndIretWriteFl :
    (∃ t, exec (.add 0 1) callState = .next t) ∧ (∀ a b, Instr.add 0 1 ≠ .cmp a b) ∧ Instr.add 0 1 ≠ .iret :=
  ⟨⟨_, rfl⟩, fun _ _ => nofun, nofun⟩
theorem witness_OnlyIretWritesIe : (∃ t, exec (.add 0 1) callState = .next t) ∧ Instr.add 0 1 ≠ .iret :=
  ⟨⟨_, rfl⟩, nofun⟩
theorem witness_IeRisesOnlyByTickOrIret_tick :
    ∃ t, step (oneTick State.reset) = .next t ∧ (oneTick State.reset).ie = false ∧ t.ie = true := ⟨_, rfl, rfl, rfl⟩
theorem witness_IeRisesOnlyByTickOrIret_iret :
    ∃ t, step (load 0 [0x13] State.reset) = .next t ∧ (load 0 [0x13] State.reset).ie = false ∧ t.ie = true :=
  ⟨_, rfl, rfl, rfl⟩
theorem witness_PcAdvancesByLengthOrJumps :
    (∃ t, exec (.add 0 1) callState = .next t ∧ (∀ f, t.status ≠ .faulted f) ∧
      (Instr.add 0 1).mnemonic.isControlTransfer = false) ∧
    ∃ t, exec (.call 1) callState = .next t ∧ (∀ f, t.status ≠ .faulted f) ∧
      (Instr.call 1).mnemonic.isControlTransfer = true :=
  ⟨⟨_, rfl, fun _ => nofun, rfl⟩, _, rfl, fun _ => nofun, rfl⟩
/-- The clause of a jump that is not taken: FL is 0, the register holds a small address, PC goes past the jump to
256. -/
theorem witness_PcAdvancesByLengthOrJumps_notTaken :
    ∃ t, exec (.jeq 1) { callState with pc := 254 } = .next t ∧ (∀ f, t.status ≠ .faulted f) ∧
      (Instr.jeq 1).mnemonic.isControlTransfer = true ∧ ¬ t.pc ≤ 255 ∧ t.pc = 254 + (Instr.jeq 1).length :=
  ⟨_, rfl, fun _ => nofun, rfl, by decide, rfl⟩
/-- The clause of an instruction that halts and is no control transfer. -/
theorem witness_PcAdvancesByLengthOrJumps_halt :
    (∃ t, exec .hlt callState = .next t ∧ (∀ f, t.status ≠ .faulted f) ∧
      Instr.hlt.mnemonic.isControlTransfer = false) ∧
    ∃ t, exec (.div 0 1) (regs2 7 0) = .next t ∧ t.status = .halted .divByZero ∧ (∀ f, t.status ≠ .faulted f) ∧
      (Instr.div 0 1).mnemonic.isControlTransfer = false :=
  ⟨⟨_, rfl, fun _ => nofun, rfl⟩, _, rfl, rfl, fun _ => nofun, rfl⟩
theorem witness_HandlerFaultChangesOnlyStatus :
    callState.status = .running ∧ (∃ t, exec (.inc 8) callState = .next t ∧ t.status = .faulted (.registerIndexFault 8)) ∧
    ∃ t, exec (.call 1) { callState with pc := 254 } = .next t ∧ t.status = .faulted (.addressError 256) :=
  ⟨rfl, ⟨_, rfl, rfl⟩, _, rfl, rfl⟩
theorem witness_IllFormedInstructionsFault :
    (Instr.inc 8).wf = false ∧ (Instr.inc 7).wf = true ∧ callState.status = .running ∧
    ∃ t, exec (.inc 7) callState = .next t := ⟨by decide, by decide, rfl, _, rfl⟩

/-- A register byte over 7, and a good first byte with a bad second: the hypotheses of `IndexFault1` and
`IndexFault2`. -/
theorem witness_IndexFaults : 7 < (8 : Byte).toNat ∧ (7 : Byte).toNat ≤ 7 ∧ 7 < (255 : Byte).toNat := by decide

theorem witness_DivModResults : (regs2 7 2).reg 1 ≠ 0 := by decide
theorem witness_DivModByZeroHalts : (regs2 7 0).reg 1 = 0 := by decide
theorem witness_ConditionalJumps : ({ State.reset with fl := 1 } : State).fl = 1 ∧ State.reset.fl ≠ 1 := by decide

/-- The canonical memory that PUSH, CALL, the primitives and the entry ask for. -/
theorem witness_PushStoresBelowSp : callState.mem.wf = true := by decide
theorem witness_PushInstructionResult : (callState.setReg 7 0).mem.wf = true ∧ (callState.setReg 7 0).sp = 0 := by
  decide
theorem witness_PopInstructionResult : (0 : Fin 8) ≠ regSP := by decide
theorem witness_PopsUndoPushes :
    callState.mem.wf = true ∧ (List.replicate 256 (7 : Byte)).length ≤ 256 :=
  ⟨by decide, by rw [List.length_replicate]⟩
theorem witness_CallPushesTheReturnAddress :
    ({ callState with pc := 253 } : State).mem.wf = true ∧ ({ callState with pc := 253 } : State).pc + 2 ≤ 255 ∧
    255 < ({ callState with pc := 254 } : State).pc + 2 := by decide
theorem witness_RetReturnsBehindTheCall :
    callState.mem.wf = true ∧ callState.pc + 2 ≤ 255 ∧
    ∃ t, exec (.call (regByte 1)) callState = .next t ∧ ∃ u : State, u.sp = t.sp ∧
      u.mem.read t.sp.toNat = t.mem.read t.sp.toNat := ⟨by decide, by decide, _, rfl, _, rfl, rfl⟩

theorem witness_TickSetsTheTimerBit :
    State.reset.ticks.now = false ∧ (oneTick State.reset).ticks.now = true := by decide
theorem witness_InterruptCheckTakesTheLowestLine_none :
    (irq 1 2 true).ie = true ∧ (irq 1 2 true).reg regIM &&& (irq 1 2 true).reg regIS = 0 := by decide
theorem witness_InterruptCheckTakesTheLowestLine_some :
    (irq 0x80 0xFF true).ie = true ∧
    ((irq 0x80 0xFF true).reg regIM &&& (irq 0x80 0xFF true).reg regIS).getLsbD (7 : Fin 8).val = true ∧
    ∀ j : Fin 8, j < 7 → ((irq 0x80 0xFF true).reg regIM &&& (irq 0x80 0xFF true).reg regIS).getLsbD j.val = false := by
  decide
theorem witness_InterruptEntrySavesTheFrame :
    ({ irq 1 1 true with pc := 255 } : State).mem.wf = true ∧ ({ irq 1 1 true with pc := 255 } : State).pc ≤ 255 := by
  decide
theorem witness_InterruptEntryPastTheTopFaults :
    ({ irq 1 1 true with pc := 256 } : State).status = .running ∧
    (afterTimer { irq 1 1 true with pc := 256 }).ie = true ∧
    (afterTimer { irq 1 1 true with pc := 256 }).reg regIM &&& (afterTimer { irq 1 1 true with pc := 256 }).reg regIS ≠ 0 ∧
    255 < ({ irq 1 1 true with pc := 256 } : State).pc := by decide
theorem witness_EntryAndFirstInstructionAreOneStep :
    (irq 1 1 true).status = .running ∧ (afterTimer (irq 1 1 true)).ie = true ∧
    ((afterTimer (irq 1 1 true)).reg regIM &&& (afterTimer (irq 1 1 true)).reg regIS).getLsbD (0 : Fin 8).val = true ∧
    (∀ l : Fin 8, l < 0 →
      ((afterTimer (irq 1 1 true)).reg regIM &&& (afterTimer (irq 1 1 true)).reg regIS).getLsbD l.val = false) ∧
    ∃ t, enterInterrupt 0 (afterTimer (irq 1 1 true)) = .ok t ∧
      decode t.cfg.opcodeMap t.window = .ok (.ldi 4 9, []) := ⟨rfl, rfl, by decide, by decide, _, rfl, by rfl⟩
theorem witness_TickEntersTheTimerLine :
    (oneTick (irq 1 0 false)).ticks.now = true ∧ (oneTick (irq 1 0 false)).cfg.tickSetsIE = true ∧
    ((oneTick (irq 1 0 false)).reg regIM).getLsbD 0 = true := by decide
theorem witness_IretUndoesTheEntry :
    (irq 1 1 true).mem.wf = true ∧ ∃ t, enterInterrupt 0 (irq 1 1 true) = .ok t ∧ ∃ u : State, u.sp = t.sp ∧
      ∀ j : Fin 9, u.mem.read (t.sp + BitVec.ofNat 8 j.val).toNat = t.mem.read (t.sp + BitVec.ofNat 8 j.val).toNat :=
  ⟨by decide, _, rfl, _, rfl, fun _ => rfl⟩

theorem witness_MemoryPrimitivesCheckTheAddress : State.reset.mem.wf = true ∧ 255 ≤ 255 ∧ 255 < 256 := by decide
theorem witness_EqualMemoriesAreEqualData :
    Memory.wf [(3, 1)] = true ∧ ∀ a, a ≤ 255 → Memory.read [(3, 1)] a = Memory.read [(3, 1)] a :=
  ⟨by decide, fun _ _ => rfl⟩

/-- Runs exist under a schedule that alternates for ever, with a free tail behind it. -/
theorem witness_EveryTickScheduleIsAdmitted :
    (∃ t, RunsUnder (fun n => n % 2 == 0) 1 { callState with ticks := ⟨[], .free 3⟩ } t ∧
      t.ticks = ⟨[], .free 3⟩ ∧ t.reg regIS = 1) ∧
    ∃ t, Steps 1 (oneTick callState) t :=
  ⟨⟨_, .succ (.zero _) rfl, rfl, by decide⟩, _, .succ (.zero _) rfl⟩

end Sys2Proof.Tests
end

section
/-! Register operands that name a slot, and the fault of those that do not (30_encoding.md R72,
60_exceptions.md R206, R207), as the statements about single instructions read them. -/

namespace Sys2Proof.Machine

variable {s : State} {x y : Fin 8} {a : Byte} {k : Fin 8 → Result} {kk : Fin 8 → Fin 8 → Result}

/-! ### Register bytes -/

@[simp] theorem regByte_toNat (x : Fin 8) : (regByte x).toNat = x.val := by
  have := x.isLt
  rw [regByte, BitVec.toNat_ofNat]
  omega

theorem regByte_le (x : Fin 8) : (regByte x).toNat ≤ 7 := by
  rw [regByte_toNat]
  exact Nat.le_of_lt_succ x.isLt

@[simp] theorem slot_regByte (h : (regByte x).toNat ≤ 7) : slot (regByte x) h = x :=
  Fin.ext (regByte_toNat x)

theorem withReg_regByte : withReg (regByte x) s k = k x := by
  rw [withReg_ok (regByte_le x), slot_regByte]

theorem withRegs_regByte : withRegs (regByte x) (regByte y) s kk = kk x y := by
  rw [withRegs_ok (regByte_le x) (regByte_le y), slot_regByte, slot_regByte]

/-! ### Bad register bytes -/

/-- A RegisterIndexFault emits no event, so STATUS is all it changes (60_exceptions.md R202). -/
theorem raise_registerIndexFault :
    raise (.registerIndexFault a) s = { s with status := .faulted (.registerIndexFault a) } := by
  simp [raise, CoreFault.events]

/-- A meaning that checks its one register operand first meets the fault rule, whatever it does after the check. -/
theorem indexFault1_of_withReg {i : Byte → Instr} (k : State → Fin 8 → Result)
    (hi : ∀ a s, exec (i a) s = withReg a s (k s)) : IndexFault1 i := by
  intro a s ha
  rw [hi, withReg_bad ha, raise_registerIndexFault]

/-- A meaning that checks its two register operands first meets the fault rule, whatever it does after the checks. -/
theorem indexFault2_of_withRegs {i : Byte → Byte → Instr} (kk : State → Fin 8 → Fin 8 → Result)
    (hi : ∀ a b s, exec (i a b) s = withRegs a b s (kk s)) : IndexFault2 i := by
  intro a b s
  constructor
  · intro ha
    rw [hi, withRegs, withReg_bad ha, raise_registerIndexFault]
  · intro ha hb
    rw [hi, withRegs, withReg_ok ha, withReg_bad hb, raise_registerIndexFault]

end Sys2Proof.Machine
end

section
/-! The shared shapes of the ALU instructions (41_alu.md R120): a meaning of that shape has the result and the
faults its statement asks for. -/

namespace Sys2Proof.Machine

/-- One register written and PC advanced is the whole effect. -/
theorem onlyRegs_advance_setReg (n : Nat) (s : State) (x : Fin 8) (v : Byte) :
    OnlyRegs [x] s (advance n (s.setReg x v)) := by
  have hregs : RegsSameExcept [x] s (advance n (s.setReg x v)) := fun r hr => by
    rw [advance_reg, reg_setReg_ne (List.ne_of_not_mem_cons hr)]
  exact ⟨hregs, rfl, fun _ => rfl, ⟨rfl, rfl, rfl⟩, rfl, rfl⟩

section Binary

variable {i : Byte → Byte → Instr} {f g : Byte → Byte → Byte}

theorem binaryResult_of_binaryAlu (hi : ∀ a b s, exec (i a b) s = binaryAlu f a b s)
    (hf : ∀ x y, f x y = g x y) : BinaryResult i g := by
  intro x y s
  refine ⟨advance 3 (s.setReg x (f (s.reg x) (s.reg y))), ?_, ?_, rfl, onlyRegs_advance_setReg ..⟩
  · rw [hi, binaryAlu, withRegs_regByte]
  · rw [advance_reg, reg_setReg_same, hf]

theorem indexFault2_of_binaryAlu (hi : ∀ a b s, exec (i a b) s = binaryAlu f a b s) : IndexFault2 i :=
  indexFault2_of_withRegs _ hi

end Binary

section Unary

variable {i : Byte → Instr} {f g : Byte → Byte}

theorem unaryResult_of_unaryAlu (hi : ∀ a s, exec (i a) s = unaryAlu f a s)
    (hf : ∀ x, f x = g x) : UnaryResult i g := by
  intro x s
  refine ⟨advance 2 (s.setReg x (f (s.reg x))), ?_, ?_, rfl, onlyRegs_advance_setReg ..⟩
  · rw [hi, unaryAlu, withReg_regByte]
  · rw [advance_reg, reg_setReg_same, hf]

theorem indexFault1_of_unaryAlu (hi : ∀ a s, exec (i a) s = unaryAlu f a s) : IndexFault1 i :=
  indexFault1_of_withReg _ hi

end Unary

/-! ### The shape of each instruction -/

variable (a b : Byte) (s : State)

theorem exec_add : exec (.add a b) s = binaryAlu aluAdd a b s := rfl
theorem exec_sub : exec (.sub a b) s = binaryAlu aluSub a b s := rfl
theorem exec_mul : exec (.mul a b) s = binaryAlu aluMul a b s := rfl
theorem exec_and : exec (.and a b) s = binaryAlu aluAnd a b s := rfl
theorem exec_or : exec (.or a b) s = binaryAlu aluOr a b s := rfl
theorem exec_xor : exec (.xor a b) s = binaryAlu aluXor a b s := rfl
theorem exec_inc : exec (.inc a) s = unaryAlu aluInc a s := rfl
theorem exec_dec : exec (.dec a) s = unaryAlu aluDec a s := rfl

/-! ### The bitwise functions -/

variable (x y : Byte)

theorem aluAnd_eq : aluAnd x y = x &&& y := rfl
theorem aluOr_eq : aluOr x y = x ||| y := rfl
theorem aluXor_eq : aluXor x y = x ^^^ y := rfl

end Sys2Proof.Machine
end

section
/-! The statements about ADD, SUB, MUL, INC, DEC, AND, OR and XOR. -/

namespace Sys2Proof.Machine

/-- Settles O29: each is a two-register operation whose exact integer result wraps as the bit vector's does. -/
theorem addSubMulWrapModulo256 : Obligations.AddSubMulWrapModulo256 :=
  ⟨binaryResult_of_binaryAlu exec_add aluAdd_eq,
    binaryResult_of_binaryAlu exec_sub aluSub_eq,
    binaryResult_of_binaryAlu exec_mul aluMul_eq,
    indexFault2_of_binaryAlu exec_add, indexFault2_of_binaryAlu exec_sub, indexFault2_of_binaryAlu exec_mul,
    fun _ _ _ => rfl, fun _ _ _ => rfl, fun _ _ _ => rfl⟩

/-- Settles O30: each is a one-register operation whose exact integer result wraps as the bit vector's does. -/
theorem incDecWrapModulo256 : Obligations.IncDecWrapModulo256 :=
  ⟨unaryResult_of_unaryAlu exec_inc aluInc_eq, unaryResult_of_unaryAlu exec_dec aluDec_eq,
    indexFault1_of_unaryAlu exec_inc, indexFault1_of_unaryAlu exec_dec,
    fun _ _ => rfl, fun _ _ => rfl⟩

/-- Settles O31: each is a two-register operation with the bitwise function for its result. -/
theorem andOrXorAreBitwise : Obligations.AndOrXorAreBitwise :=
  ⟨binaryResult_of_binaryAlu exec_and aluAnd_eq,
    binaryResult_of_binaryAlu exec_or aluOr_eq,
    binaryResult_of_binaryAlu exec_xor aluXor_eq,
    indexFault2_of_binaryAlu exec_and, indexFault2_of_binaryAlu exec_or, indexFault2_of_binaryAlu exec_xor,
    fun _ _ _ => rfl, fun _ _ _ => rfl, fun _ _ _ => rfl⟩

end Sys2Proof.Machine
end

section
/-! The statement about LDI (42_data_io.md R150). -/

namespace Sys2Proof.Machine

/-- LDI checks its register byte, then writes the immediate. -/
theorem exec_ldi (a v : Byte) (s : State) :
    exec (.ldi a v) s = withReg a s fun x => .next (advance 3 (s.setReg x v)) := rfl

/-- LDI of a register byte that names a slot completes with the immediate in that slot. -/
theorem exec_ldi_regByte (x : Fin 8) (v : Byte) (s : State) :
    exec (.ldi (regByte x) v) s = .next (advance 3 (s.setReg x v)) := by
  rw [exec_ldi, withReg_regByte]

/-- Settles O36: LDI is one register write behind one register check, so the shared frame and fault lemmas apply. -/
theorem ldiLoadsTheByte : Obligations.LdiLoadsTheByte := by
  refine ⟨fun x v s => ?_, fun a v s => ?_, fun _ _ _ => rfl⟩
  · refine ⟨advance 3 (s.setReg x v), exec_ldi_regByte x v s, ?_, rfl, onlyRegs_advance_setReg 3 s x v⟩
    rw [advance_reg, reg_setReg_same]
  · exact indexFault1_of_withReg _ (fun a s => exec_ldi a v s) a s

end Sys2Proof.Machine
end

section
/-! The statements about the stack primitives (43_stack.md R160, R161): the frames of Push and Pop, said once. -/

namespace Sys2Proof.Machine

/-! ### The frames of Push and Pop -/

/-- SP is the one register a Push changes. -/
theorem push_regsSameExcept (v : Byte) (s : State) : RegsSameExcept [regSP] s (push v s) :=
  fun _ hr => push_reg (List.ne_of_not_mem_cons hr)

/-- The cell below SP is the one a Push changes. -/
theorem push_memSameExcept {s : State} (v : Byte) (h : s.mem.wf = true) :
    MemSameExcept (s.sp - 1) s (push v s) := fun a ha => by
  rw [push_mem, Memory.read_write_ne h ha]

/-- The cell below SP holds the byte pushed. -/
theorem push_read_top {s : State} (v : Byte) (h : s.mem.wf = true) :
    (push v s).mem.read (s.sp - 1).toNat = v := by
  rw [push_mem, Memory.read_write_same h]

/-- SP is all that a Pop changes: memory is not cleared. -/
theorem popState_onlyRegs (s : State) : OnlyRegs [regSP] s (popState s) := by
  have hregs : RegsSameExcept [regSP] s (popState s) := fun _ hr => popState_reg (List.ne_of_not_mem_cons hr)
  have hmem : MemSame s (popState s) := fun a => by rw [popState_mem]
  exact ⟨hregs, popState_fl, hmem, ⟨popState_ie, popState_cfg, popState_ticks⟩, popState_status, popState_out⟩

/-! ### The statements -/

/-- Settles O38: a Push is one register write and one store, so read after write gives the stored byte and the
frame. -/
theorem pushStoresBelowSp : Obligations.PushStoresBelowSp := fun v s h =>
  ⟨push_sp, push_read_top v h, push_memSameExcept v h, push_regsSameExcept v s,
    push_pc, push_fl, ⟨push_ie, push_cfg, push_ticks⟩, push_status, push_out⟩

/-- Settles O39: the byte is read at the SP before the increment, and the increment is the one change. -/
theorem popReadsAtSp : Obligations.PopReadsAtSp := fun s =>
  ⟨popValue_eq, popState_sp, popState_onlyRegs s, popState_pc⟩

end Sys2Proof.Machine
end

section
/-! The statements about RET and JMP (44_control.md R171, R172). A control transfer writes PC itself, and PC stands
outside every frame, so the frame of what it does before is the frame of the whole instruction. -/

namespace Sys2Proof.Machine

/-! ### The frame of a control transfer -/

theorem onlyRegs_refl (rs : List (Fin 8)) (s : State) : OnlyRegs rs s s :=
  ⟨fun _ _ => rfl, rfl, fun _ => rfl, ⟨rfl, rfl, rfl⟩, rfl, rfl⟩

/-- Writing PC leaves a frame as it is: `OnlyRegs` does not speak of PC. -/
theorem onlyRegs_setPc {rs : List (Fin 8)} {s t : State} (n : Nat) (h : OnlyRegs rs s t) :
    OnlyRegs rs s (setPc n t) := by
  obtain ⟨hregs, hfl, hmem, hgate, hports⟩ := h
  have hregs' : RegsSameExcept rs s (setPc n t) := fun r hr => by rw [setPc_reg, hregs r hr]
  exact ⟨hregs', hfl, hmem, hgate, hports⟩

/-! ### The meanings -/

/-- RET is a Pop whose byte goes to PC. -/
theorem exec_ret (s : State) : exec .ret s = .next (setPc (popValue s).toNat (popState s)) := rfl

/-- JMP checks its register byte, then writes PC. -/
theorem exec_jmp (a : Byte) (s : State) :
    exec (.jmp a) s = withReg a s fun x => .next (setPc (s.reg x).toNat s) := rfl

/-- JMP of a register byte that names a slot completes with that register's value in PC. -/
theorem exec_jmp_regByte (x : Fin 8) (s : State) :
    exec (.jmp (regByte x)) s = .next (setPc (s.reg x).toNat s) := by
  rw [exec_jmp, withReg_regByte]

/-! ### The statements -/

/-- Settles O44: RET has the frame of Pop, and the popped byte is below 256, so PC is an address of memory. -/
theorem retPopsPc : Obligations.RetPopsPc := by
  refine ⟨fun s => ⟨setPc (popValue s).toNat (popState s), exec_ret s, ?_, ?_, ?_, ?_⟩, fun _ => rfl⟩
  · rw [setPc_pc, popValue_eq]
  · exact Nat.le_of_lt_succ (popValue s).isLt
  · exact popState_sp
  · exact onlyRegs_setPc _ (popState_onlyRegs s)

/-- Settles O46: JMP is one write of PC behind one register check, so nothing else moves. -/
theorem jmpGoesToTheRegister : Obligations.JmpGoesToTheRegister := by
  refine ⟨fun x s => ?_, fun a s => ?_, fun _ _ => rfl⟩
  · exact ⟨setPc (s.reg x).toNat s, exec_jmp_regByte x s, setPc_pc s _, onlyRegs_setPc _ (onlyRegs_refl [] s)⟩
  · exact indexFault1_of_withReg _ exec_jmp a s

end Sys2Proof.Machine
end

section
/-! The statement about the interrupt check (60_exceptions.md R210): a search over the lines in ascending order
answers the least line whose bit is set. -/

namespace Sys2Proof.Machine

/-! ### The lowest line -/

/-- The lines are searched in the order of their numbers. -/
theorem lines_eq_finRange : lines = List.finRange 8 := rfl

theorem lowestLine_zero : lowestLine 0 = none := by decide

/-- The search passes every line below `i` and stops there. -/
theorem lowestLine_eq_some {masked : Byte} {i : Fin 8} (hi : masked.getLsbD i.val = true)
    (hlow : ∀ j : Fin 8, j < i → masked.getLsbD j.val = false) : lowestLine masked = some i := by
  rw [lowestLine, lines_eq_finRange, List.find?_eq_some_iff_getElem]
  refine ⟨hi, i.val, by simp, by simp, fun j hj => ?_⟩
  simpa using hlow ⟨j, hj.trans i.isLt⟩ hj

/-! ### Step 2 with IE on -/

theorem interruptStep_of_none {s : State} (hie : s.ie = true)
    (hline : lowestLine (s.reg regIM &&& s.reg regIS) = none) : interruptStep s = .ok s := by
  rw [interruptStep, if_pos hie, interruptCheck, hline]

theorem interruptStep_of_some {s : State} {i : Fin 8} (hie : s.ie = true)
    (hline : lowestLine (s.reg regIM &&& s.reg regIS) = some i) : interruptStep s = enterInterrupt i s := by
  rw [interruptStep, if_pos hie, interruptCheck, hline]

/-- Settles O51: step 2 does what the search for the lowest line says, and both hypotheses fix its answer. -/
theorem interruptCheckTakesTheLowestLine : Obligations.InterruptCheckTakesTheLowestLine := by
  refine fun s hie => ⟨fun hzero => ?_, fun i hi hlow => ?_⟩
  · exact interruptStep_of_none hie (by rw [hzero, lowestLine_zero])
  · exact interruptStep_of_some hie (lowestLine_eq_some hi hlow)

end Sys2Proof.Machine
end

section
/-! The statement about unknown opcodes (60_exceptions.md R201): the decoder's answer, carried through the fetch to
the step. -/

namespace Sys2Proof.Machine

variable {m : OpcodeMap} {op : Byte} {rest : List Byte} {s t : State} {f : CoreFault}

/-! ### The decoder -/

theorem lookup_eq_none (h : ∀ k, m.byte k ≠ op) : m.lookup op = none :=
  List.find?_eq_none.2 fun k _ => by simpa using h k

/-- An opcode is unknown by its count field, or by the lookup once its operand bytes are there
(40_dispatch.md R103, R104). -/
theorem decode_unknownOpcode
    (h : countField op = 3 ∨ (countField op ≤ rest.length ∧ ∀ k, m.byte k ≠ op)) :
    decode m (op :: rest) = .error (.unknownOpcode op) := by
  rcases h with hcount | ⟨hlen, hbyte⟩
  · rw [decode, if_pos hcount]
  · rcases decode_cases (m := m) (op := op) (rest := rest) with
      ⟨-, hdec⟩ | ⟨-, hshort, -⟩ | ⟨-, -, ⟨k, i, hk, -, -⟩ | ⟨-, hdec⟩⟩
    · exact hdec
    · exact absurd hshort (Nat.not_lt.2 hlen)
    · exact absurd (OpcodeMap.byte_of_lookup hk) (hbyte k)
    · exact hdec

/-! ### The fetch -/

/-- The window holds the opcode and then every operand byte, at most two, that lies within memory. -/
theorem window_eq_opcode_cons (hpc : s.pc ≤ 255) :
    ∃ rest, s.window = s.mem.read s.pc :: rest ∧ ∀ n, n ≤ 2 → s.pc + n ≤ 255 → n ≤ rest.length := by
  rcases window_cases (s := s) with ⟨hout, -⟩ | ⟨hpc', hw⟩ | ⟨hpc', hw⟩ | ⟨-, hw⟩
  · omega
  · exact ⟨_, hw, fun n _ hn => by simp only [List.length_nil]; omega⟩
  · exact ⟨_, hw, fun n _ hn => by simp only [List.length_cons, List.length_nil]; omega⟩
  · exact ⟨_, hw, fun n hn _ => hn⟩

/-- A count field is two bits wide. -/
theorem countField_le (op : Byte) : countField op ≤ 3 := by
  have := op.isLt
  rw [countField]
  omega

theorem fetch_unknownOpcode (hpc : s.pc ≤ 255) (hop : s.mem.read s.pc = op)
    (h : countField op = 3 ∨ (s.pc + countField op ≤ 255 ∧ ∀ k, s.cfg.opcodeMap.byte k ≠ op)) :
    fetch s = .error (.unknownOpcodeFault op s.pc) := by
  obtain ⟨rest, hwindow, hlen⟩ := window_eq_opcode_cons hpc
  have hunknown : countField op = 3 ∨
      (countField op ≤ rest.length ∧ ∀ k, s.cfg.opcodeMap.byte k ≠ op) := by
    by_cases hcount : countField op = 3
    · exact .inl hcount
    · obtain ⟨hin, hbyte⟩ := h.resolve_left hcount
      have := countField_le op
      exact .inr ⟨hlen _ (by omega) hin, hbyte⟩
  rw [fetch, hwindow, hop, decode_unknownOpcode hunknown]
  rfl

/-! ### The step -/

/-- A fault of the fetch is raised in the state that steps 1 and 2 leave (40_dispatch.md R108). -/
theorem step_of_fetch_error (hrun : s.status = .running) (hbefore : beforeFetch s = .ok t)
    (hfetch : fetch t = .error f) : step s = .next (raise f t) := by
  rw [step_running hrun, cycle, hbefore]
  simp only [hfetch]

/-- UnknownOpcodeFault writes STATUS and emits its one diagnostic (60_exceptions.md R201). -/
theorem raise_unknownOpcodeFault (op : Byte) (pc : Nat) (s : State) :
    raise (.unknownOpcodeFault op pc) s =
      { s with status := .faulted (.unknownOpcodeFault op pc), out := s.out ++ [.diag .unknownOpcode] } := rfl

/-- Settles O12: the fetch answers the fault at both places the rule names, and the step raises it. -/
theorem unknownOpcodeFaultsTheStep : Obligations.UnknownOpcodeFaultsTheStep := by
  intro s t op hrun hbefore hpc hop hunknown
  rw [step_of_fetch_error hrun hbefore (fetch_unknownOpcode hpc hop hunknown), raise_unknownOpcodeFault]

end Sys2Proof.Machine
end

section
/-! The statements about the encoding (30_encoding.md): the decoder's success, said once in each direction. -/

namespace Sys2Proof

variable {m : OpcodeMap} {op : Byte} {k : Mnemonic} {i : Instr} {bs rest : List Byte} {n : Nat}

/-! ### What the formats promise -/

theorem Format.operandCount_le (g : Format) : g.operandCount ≤ 2 := by cases g <;> decide

/-- An instruction has as many operand bytes as its format says (30_encoding.md R71). -/
theorem Instr.operands_length (i : Instr) : i.operands.length = i.mnemonic.format.operandCount := by
  cases i <;> rfl

theorem Instr.length_le (i : Instr) : i.length ≤ 3 := by
  have := i.mnemonic.format.operandCount_le
  rw [Instr.length]
  omega

theorem encode_length (m : OpcodeMap) (i : Instr) : (encode m i).length = i.length := by
  rw [encode, List.length_cons, Instr.operands_length, Instr.length]

/-! ### When the decoder answers an instruction -/

/-- The decoder answers what the lookup and the builder answer, once the operand bytes are there. -/
theorem decode_of_build (hcount : countField op ≠ 3) (hlen : countField op ≤ rest.length)
    (hlookup : m.lookup op = some k) (hbuild : k.build (rest.take (countField op)) = some i) :
    decode m (op :: rest) = .ok (i, rest.drop (countField op)) := by
  rw [decode, if_neg hcount, if_neg (Nat.not_lt.2 hlen), hlookup, Option.bind_some, hbuild]

/-- The decoder answers an instruction only by the lookup and the builder, on bytes that begin with an opcode. -/
theorem build_of_decode (h : decode m bs = .ok (i, rest)) :
    ∃ op tail k, bs = op :: tail ∧ m.lookup op = some k ∧
      k.build (tail.take (countField op)) = some i ∧ rest = tail.drop (countField op) := by
  cases bs with
  | nil => simp [decode] at h
  | cons op tail =>
    rcases decode_cases (m := m) (op := op) (rest := tail) with
      ⟨-, hdec⟩ | ⟨-, -, hdec⟩ | ⟨-, -, ⟨k, i', hk, hb, hdec⟩ | ⟨-, hdec⟩⟩
    · simp [hdec] at h
    · simp [hdec] at h
    · rw [hdec] at h
      obtain ⟨rfl, rfl⟩ : i' = i ∧ tail.drop (countField op) = rest := by simpa using h
      exact ⟨op, tail, k, rfl, hk, hb, rfl⟩
    · simp [hdec] at h

/-! ### The bytes that are no opcode -/

/-- The opcode bytes of a map, as numbers. -/
def OpcodeMap.knownBytes (m : OpcodeMap) : List Nat := Mnemonic.all.map fun k => (m.byte k).toNat

/-- The bytes that the lookup answers no mnemonic for, as numbers. -/
def OpcodeMap.unknownBytes (m : OpcodeMap) : List Nat :=
  (List.range 256).filter fun n => (m.lookup (BitVec.ofNat 8 n)).isNone

theorem OpcodeMap.knownBytes_nodup (hm : m.admissible = true) : m.knownBytes.Nodup := by
  refine List.Nodup.map (fun k k' h => ?_) (by decide)
  exact (OpcodeMap.admissible_iff.1 hm k).2 k' (BitVec.eq_of_toNat_eq h)

theorem OpcodeMap.lt_of_mem_knownBytes (h : n ∈ m.knownBytes) : n < 256 := by
  obtain ⟨k, -, rfl⟩ := List.mem_map.1 h
  exact (m.byte k).isLt

theorem OpcodeMap.mem_unknownBytes : n ∈ m.unknownBytes ↔ n < 256 ∧ n ∉ m.knownBytes := by
  rw [OpcodeMap.unknownBytes, List.mem_filter, List.mem_range, Option.isNone_iff_eq_none,
    OpcodeMap.lookup, List.find?_eq_none, OpcodeMap.knownBytes, List.mem_map]
  refine and_congr_right fun hn => ⟨?_, ?_⟩
  · rintro h ⟨k, hk, rfl⟩
    simpa using h k hk
  · rintro h k hk hbyte
    refine h ⟨k, hk, ?_⟩
    rw [eq_of_beq hbyte, BitVec.toNat_ofNat, Nat.mod_eq_of_lt hn]

/-- The known and the unknown bytes are all 256, each once (30_encoding.md R80). -/
theorem OpcodeMap.knownBytes_append_unknownBytes_perm (hm : m.admissible = true) :
    (m.knownBytes ++ m.unknownBytes).Perm (List.range 256) := by
  have hdisj : m.knownBytes.Disjoint m.unknownBytes := fun _ hk hu => (mem_unknownBytes.1 hu).2 hk
  have hnodup : (m.knownBytes ++ m.unknownBytes).Nodup :=
    (m.knownBytes_nodup hm).append (List.nodup_range.filter _) hdisj
  rw [List.perm_ext_iff_of_nodup hnodup List.nodup_range]
  intro n
  rw [List.mem_append, mem_unknownBytes, List.mem_range]
  have := lt_of_mem_knownBytes (m := m) (n := n)
  tauto

theorem OpcodeMap.unknownBytes_length (hm : m.admissible = true) : m.unknownBytes.length = 227 := by
  have hall := (m.knownBytes_append_unknownBytes_perm hm).length_eq
  have hknown : m.knownBytes.length = 29 := rfl
  rw [List.length_append, List.length_range] at hall
  omega

/-! ### The statements -/

/-- Settles O4: the count field of an admissible opcode cuts off exactly the operand bytes, the lookup finds the
mnemonic, and the builder gives the instruction back. -/
theorem decodeOfEncode : Obligations.DecodeOfEncode := by
  intro m i rest hm
  obtain ⟨hcount, -⟩ := OpcodeMap.admissible_iff.1 hm i.mnemonic
  have hoperands : countField (m.byte i.mnemonic) = i.operands.length := by
    rw [hcount, Instr.operands_length]
  have hbuild : i.mnemonic.build ((i.operands ++ rest).take (countField (m.byte i.mnemonic))) = some i := by
    rw [hoperands, List.take_left, Instr.build_operands]
  have hdec := decode_of_build (m := m) (op := m.byte i.mnemonic) (rest := i.operands ++ rest)
    (by have := i.mnemonic.format.operandCount_le; omega)
    (by rw [hoperands, List.length_append]; omega)
    (OpcodeMap.lookup_byte hm) hbuild
  rwa [hoperands, List.drop_left] at hdec

/-- Settles O5: the lookup answers a mnemonic of that very byte, and the builder keeps the operand bytes. -/
theorem decodedBytesAreTheEncoding : Obligations.DecodedBytesAreTheEncoding := by
  intro m bs i rest h
  obtain ⟨op, tail, k, rfl, hk, hb, rfl⟩ := build_of_decode h
  obtain ⟨rfl, hoperands⟩ := Mnemonic.of_build hb
  rw [encode, OpcodeMap.byte_of_lookup hk, hoperands, List.cons_append, List.take_append_drop]

/-- Settles O6: the default map is admissible, and every admissible map leaves the rest of the 256 bytes unknown. -/
theorem defaultOpcodeMapIsAdmissible : Obligations.DefaultOpcodeMapIsAdmissible := by
  have hm : OpcodeMap.default.admissible = true := by decide
  exact ⟨hm, OpcodeMap.unknownBytes_length hm⟩

/-- Settles O7: each clause is one branch of the decoder, in the decoder's order. -/
theorem decoderRefusesByName : Obligations.DecoderRefusesByName := by
  refine fun m op rest => ⟨rfl, fun hcount => ?_, fun hcount hshort => ?_, fun hcount hlen hbyte => ?_⟩
  · exact Machine.decode_unknownOpcode (.inl hcount)
  · rw [decode, if_neg hcount, if_pos hshort]
  · exact Machine.decode_unknownOpcode (.inr ⟨hlen, hbyte⟩)

/-- Settles O8: closed words under the closed default map. -/
theorem sampleWordsDecode : Obligations.SampleWordsDecode :=
  ⟨rfl, rfl, rfl, rfl, rfl, rfl, rfl⟩

end Sys2Proof
end

section
/-! The statements about the fetch (40_dispatch.md R102 to R104): which bytes of memory the window holds, and what
the step makes of them. -/

namespace Sys2Proof.Machine

variable {s t : State} {i : Instr} {rest : List Byte} {n p j : Nat}

/-! ### The window in terms of memory -/

/-- The window is memory from its address up, as far as 255. -/
theorem fetchWindow_getElem? :
    (fetchWindow p n s)[j]? = if j < n ∧ p + j ≤ 255 then some (s.mem.read (p + j)) else none := by
  induction n generalizing p j with
  | zero => simp [fetchWindow_zero]
  | succ n ih =>
    by_cases hp : p ≤ 255
    · rw [fetchWindow_in hp]
      cases j with
      | zero => simp [hp]
      | succ j =>
        rw [List.getElem?_cons_succ, ih, Nat.add_right_comm p 1 j, Nat.add_assoc p j 1]
        simp
    · rw [fetchWindow_out (by omega), List.getElem?_nil, if_neg (by omega)]

/-- An instruction's bytes stand in memory from `p` up, all below 256 (20_memory.md R54). -/
def StandsAt (s : State) (p : Nat) (i : Instr) : Prop :=
  p + i.length ≤ 256 ∧ ∀ j (h : j < (encode s.cfg.opcodeMap i).length),
    s.mem.read (p + j) = (encode s.cfg.opcodeMap i)[j]

/-- The window at PC begins with the bytes that stand there, and with no others. -/
theorem standsAt_pc_iff :
    StandsAt s s.pc i ↔ ∃ rest, s.window = encode s.cfg.opcodeMap i ++ rest := by
  have hbegin : (∃ rest, s.window = encode s.cfg.opcodeMap i ++ rest) ↔
      encode s.cfg.opcodeMap i <+: s.window := exists_congr fun _ => eq_comm
  have hlen := encode_length s.cfg.opcodeMap i
  have hle := i.length_le
  rw [hbegin, List.prefix_iff_getElem?, StandsAt]
  simp only [State.window, fetchWindow_getElem?]
  constructor
  · rintro ⟨hin, hbytes⟩ j hj
    rw [if_pos ⟨by omega, by omega⟩, hbytes j hj]
  · intro hbytes
    have hcell : ∀ j (h : j < (encode s.cfg.opcodeMap i).length), s.pc + j ≤ 255 ∧
        s.mem.read (s.pc + j) = (encode s.cfg.opcodeMap i)[j] := fun j h => by
      have := hbytes j h
      split at this
      · exact ⟨by omega, by simpa using this⟩
      · simp at this
    have hpos : 0 < i.length := Nat.succ_pos _
    have := (hcell (i.length - 1) (by omega)).1
    exact ⟨by omega, fun j h => (hcell j h).2⟩

/-! ### The fetch -/

theorem fetch_eq_ok_iff :
    fetch s = .ok i ↔ ∃ rest, decode s.cfg.opcodeMap s.window = .ok (i, rest) := by
  rw [fetch]
  split
  next i' rest hdec => simp [hdec]
  next e hdec => simp [hdec]

/-- What the fetch answers stands in memory at PC. -/
theorem standsAt_of_fetch (h : fetch s = .ok i) : StandsAt s s.pc i := by
  obtain ⟨rest, hdec⟩ := fetch_eq_ok_iff.1 h
  exact standsAt_pc_iff.2 ⟨rest, decodedBytesAreTheEncoding _ _ _ _ hdec⟩

/-- Under an admissible map the fetch answers what stands in memory at PC. -/
theorem fetch_of_standsAt (hm : s.cfg.opcodeMap.admissible = true) (h : StandsAt s s.pc i) :
    fetch s = .ok i := by
  obtain ⟨rest, hwindow⟩ := standsAt_pc_iff.1 h
  exact fetch_eq_ok_iff.2 ⟨rest, by rw [hwindow, decodeOfEncode _ _ _ hm]⟩

/-- The window at a PC within memory: the opcode, and behind it as many bytes, at most two, as memory still has. -/
theorem window_eq_cons (hpc : s.pc ≤ 255) :
    ∃ rest, s.window = s.mem.read s.pc :: rest ∧ rest.length = min 2 (255 - s.pc) := by
  rcases window_cases (s := s) with ⟨hout, -⟩ | ⟨hpc', hw⟩ | ⟨hpc', hw⟩ | ⟨hpc', hw⟩
  · omega
  all_goals exact ⟨_, hw, by simp only [List.length_cons, List.length_nil]; omega⟩

/-- An opcode past 255 is the missing byte 0 (40_dispatch.md R102). -/
theorem fetch_opcode_past_top (hpc : 255 < s.pc) : fetch s = .error (.addressError s.pc) := by
  have hwindow : s.window = [] := fetchWindow_out hpc
  rw [fetch, hwindow]
  rfl

/-- An operand byte past 255 is the first missing byte, the one at address 256 (40_dispatch.md R103). -/
theorem fetch_operand_past_top (hpc : s.pc ≤ 255) (hcount : countField (s.mem.read s.pc) ≠ 3)
    (hout : 255 < s.pc + countField (s.mem.read s.pc)) : fetch s = .error (.addressError 256) := by
  obtain ⟨rest, hwindow, hlen⟩ := window_eq_cons hpc
  have := countField_le (s.mem.read s.pc)
  have hmissing : s.pc + (rest.length + 1) = 256 := by omega
  rw [fetch, hwindow, decode, if_neg hcount, if_pos (by omega)]
  simp only [decodeFault, hmissing]

/-! ### The step -/

theorem step_of_fetch_ok (hrun : s.status = .running) (hbefore : beforeFetch s = .ok t)
    (hfetch : fetch t = .ok i) : step s = exec i t := by
  rw [step_running hrun, cycle, hbefore]
  simp only [hfetch]

/-- An AddressError emits no event, so STATUS is all it changes (60_exceptions.md R202). -/
theorem raise_addressError (a : Nat) (s : State) :
    raise (.addressError a) s = { s with status := .faulted (.addressError a) } := by
  simp [raise, CoreFault.events]

/-! ### The statements -/

/-- Settles O9: the fetch is the decoder's answer, and the step runs what the fetch answers. -/
theorem stepRunsTheDecodedInstruction : Obligations.StepRunsTheDecodedInstruction :=
  fun _ _ _ rest hrun hbefore hdec => step_of_fetch_ok hrun hbefore (fetch_eq_ok_iff.2 ⟨rest, hdec⟩)

/-- Settles O10: the bytes in memory are the beginning of the window, which decodes to their instruction. -/
theorem stepRunsTheBytesInMemory : Obligations.StepRunsTheBytesInMemory :=
  fun _ _ _ hrun hbefore hm hin hbytes =>
    step_of_fetch_ok hrun hbefore (fetch_of_standsAt hm ⟨hin, hbytes⟩)

/-- Settles O13: the fetch answers the missing byte's address in both places, and the step raises it. -/
theorem fetchPastTheTopFaults : Obligations.FetchPastTheTopFaults := by
  refine fun s t hrun hbefore => ⟨fun hpc => ?_, fun hpc hcount hout => ?_⟩
  · rw [step_of_fetch_error hrun hbefore (fetch_opcode_past_top hpc), raise_addressError]
  · rw [step_of_fetch_error hrun hbefore (fetch_operand_past_top hpc hcount hout), raise_addressError]

end Sys2Proof.Machine
end

section
/-! The statements about steps 1 and 2 of the cycle (60_exceptions.md R210, R215): the tick, the interrupt check and
what they hand to the fetch. -/

namespace Sys2Proof.Machine

variable {s t : State} {i : Fin 8} {f : CoreFault}

/-! ### Step 1 -/

theorem afterTimer_of_no_tick (h : s.ticks.now = false) : afterTimer s = { s with ticks := s.ticks.rest } := by
  rw [afterTimer, timerTick, h]
  rfl

/-- A tick sets IS bit 0, and IE when the parameter says so (60_exceptions.md R215). -/
theorem afterTimer_of_tick (h : s.ticks.now = true) :
    (afterTimer s).reg regIS = s.reg regIS ||| 1 ∧ (afterTimer s).ie = (s.ie || s.cfg.tickSetsIE) := by
  rw [afterTimer, timerTick, if_pos h, reg_withIe, reg_setReg_same, reg_withTicks]
  exact ⟨rfl, rfl⟩

/-- IE is set in step 1 only by a tick under the parameter (60_exceptions.md R215, R217). -/
theorem tick_of_afterTimer_ie (hoff : s.ie = false) (hon : (afterTimer s).ie = true) :
    s.ticks.now = true ∧ s.cfg.tickSetsIE = true := by
  cases hnow : s.ticks.now with
  | false => rw [afterTimer_of_no_tick hnow, hoff] at hon; cases hon
  | true =>
    rw [(afterTimer_of_tick hnow).2, hoff, Bool.false_or] at hon
    exact ⟨rfl, hon⟩

/-! ### Step 2 -/

theorem interruptStep_of_ie_off (h : s.ie = false) : interruptStep s = .ok s := by
  rw [interruptStep, h]
  rfl

theorem interruptStep_of_none_pending (h : s.reg regIM &&& s.reg regIS = 0) : interruptStep s = .ok s := by
  cases hie : s.ie with
  | false => exact interruptStep_of_ie_off hie
  | true => exact interruptStep_of_none hie (by rw [h, lowestLine_zero])

/-- When any bit is set, the search over the eight lines finds one. -/
theorem lowestLine_isSome {masked : Byte} (h : masked ≠ 0) : ∃ i, lowestLine masked = some i := by
  rw [← Option.isSome_iff_exists, lowestLine, List.find?_isSome]
  by_contra hnone
  refine h (BitVec.eq_of_getLsbD_eq fun j hj => ?_)
  rw [lines_eq_finRange] at hnone
  simpa using fun hbit => hnone ⟨⟨j, hj⟩, List.mem_finRange _, hbit⟩

theorem enterInterrupt_of_pc_past_top (h : 255 < s.pc) : enterInterrupt i s = .error (.addressError s.pc) :=
  if_pos h

theorem enterInterrupt_of_pc_le (h : s.pc ≤ 255) : enterInterrupt i s = .ok (entryState i s) :=
  if_neg (Nat.not_lt.2 h)

/-! ### What steps 1 and 2 hand on -/

/-- Steps 1 and 2 answer the state after the tick, or the entry from there. -/
theorem beforeFetch_eq_ok (h : beforeFetch s = .ok t) :
    t = afterTimer s ∨ (s.pc ≤ 255 ∧ ∃ i, t = entryState i (afterTimer s)) := by
  obtain ⟨hpc, -⟩ := afterTimer_fields (s := s)
  rw [beforeFetch] at h
  rcases interruptStep_cases (s := afterTimer s) with e | ⟨-, e⟩ | ⟨hle, i, e⟩
  · exact .inl (by simpa using h.symm.trans e)
  · cases h.symm.trans e
  · exact .inr ⟨hpc ▸ hle, i, by simpa using h.symm.trans e⟩

/-- The one fault of steps 1 and 2 is that of an entry whose PC does not fit a byte (60_exceptions.md R211). -/
theorem beforeFetch_eq_error (h : beforeFetch s = .error f) : 255 < s.pc ∧ f = .addressError s.pc := by
  obtain ⟨hpc, -⟩ := afterTimer_fields (s := s)
  rw [beforeFetch] at h
  rcases interruptStep_cases (s := afterTimer s) with e | ⟨hgt, e⟩ | ⟨-, i, e⟩
  · cases h.symm.trans e
  · rw [hpc] at hgt e
    exact ⟨hgt, by simpa using h.symm.trans e⟩
  · cases h.symm.trans e

/-- What steps 1 and 2 leave alone, and the one tick they consume. -/
theorem beforeFetch_fields (h : beforeFetch s = .ok t) :
    t.status = s.status ∧ t.out = s.out ∧ t.cfg = s.cfg ∧ t.ticks = s.ticks.rest ∧
    (t.pc = s.pc ∨ t.pc ≤ 255) ∧ (s.mem.wf = true → t.mem.wf = true) ∧
    (t.ie = true → (afterTimer s).ie = true) := by
  obtain ⟨hpc, -, hstatus, hmem, hout, hcfg, hticks, -⟩ := afterTimer_fields (s := s)
  rcases beforeFetch_eq_ok h with rfl | ⟨-, i, rfl⟩
  · exact ⟨hstatus, hout, hcfg, hticks, .inl hpc, fun hwf => hmem ▸ hwf, id⟩
  · obtain ⟨eie, -, estatus, eout, ecfg, eticks, -, -, -, epc, ewf⟩ :=
      entryState_fields (i := i) (s := afterTimer s)
    exact ⟨estatus.trans hstatus, eout.trans hout, ecfg.trans hcfg, eticks.trans hticks, .inr epc,
      fun hwf => ewf (hmem ▸ hwf), fun hon => by rw [eie] at hon; cases hon⟩

/-- A fault of the entry is raised in the state after the tick (40_dispatch.md R108). -/
theorem step_of_beforeFetch_error (hrun : s.status = .running) (hbefore : beforeFetch s = .error f) :
    step s = .next (raise f (afterTimer s)) := by
  rw [step_running hrun, cycle, hbefore]

/-! ### The statements -/

/-- Settles O50: with a tick, the frame of step 1 and the two bits it sets; without one, the consumed tick alone. -/
theorem tickSetsTheTimerBit : Obligations.TickSetsTheTimerBit := by
  refine fun s => ⟨afterTimer_of_no_tick, fun htick => ?_⟩
  obtain ⟨hpc, hfl, hstatus, hmem, hout, hcfg, -, hregs⟩ := afterTimer_fields (s := s)
  obtain ⟨his, hie⟩ := afterTimer_of_tick htick
  have hframe : RegsSameExcept [regIS] s (afterTimer s) := fun r hr => hregs r (List.ne_of_not_mem_cons hr)
  have hsame : MemSame s (afterTimer s) := fun a => by rw [hmem]
  exact ⟨his, hie, hframe, hfl, hpc, hsame, ⟨hstatus, hout⟩, hcfg⟩

/-- Settles O11: step 1 consumes the tick, and step 2 has nothing to take. -/
theorem quietCycleFetchesAtPc : Obligations.QuietCycleFetchesAtPc := by
  intro s htick hquiet
  rw [beforeFetch, afterTimer_of_no_tick htick]
  rcases hquiet with hie | hmasked
  · exact interruptStep_of_ie_off hie
  · exact interruptStep_of_none_pending hmasked

/-- Settles O53: the entry checks PC first, and the step raises that fault in the state after the tick. -/
theorem interruptEntryPastTheTopFaults : Obligations.InterruptEntryPastTheTopFaults := by
  refine ⟨fun s i hpc => enterInterrupt_of_pc_past_top hpc, fun s hrun hie hmasked hpc => ?_⟩
  obtain ⟨hpc', -⟩ := afterTimer_fields (s := s)
  obtain ⟨i, hi⟩ := lowestLine_isSome hmasked
  have hbefore : beforeFetch s = .error (.addressError s.pc) := by
    rw [beforeFetch, interruptStep_of_some hie hi, enterInterrupt_of_pc_past_top (by omega), hpc']
  rw [step_of_beforeFetch_error hrun hbefore, raise_addressError]

/-- Settles O54: step 2 answers the entry of the lowest line, and the cycle goes on with the fetch there. -/
theorem entryAndFirstInstructionAreOneStep : Obligations.EntryAndFirstInstructionAreOneStep := by
  intro s t i j rest hrun hie hi hlow hentry hdec
  have hbefore : beforeFetch s = .ok t := by
    rw [beforeFetch, interruptStep_of_some hie (lowestLine_eq_some hi hlow), hentry]
  exact stepRunsTheDecodedInstruction s t j rest hrun hbefore hdec

/-- Settles O55: after the tick IE is on and bit 0 is pending, and no line is lower than 0. -/
theorem tickEntersTheTimerLine : Obligations.TickEntersTheTimerLine := by
  intro s htick hgate hmask
  obtain ⟨his, hie⟩ := afterTimer_of_tick htick
  obtain ⟨-, -, -, -, -, -, -, hregs⟩ := afterTimer_fields (s := s)
  have hon : (afterTimer s).ie = true := by
    rw [hie, Bool.or_eq_true]
    exact hgate.symm
  have hpending : ((afterTimer s).reg regIM &&& (afterTimer s).reg regIS).getLsbD (0 : Fin 8).val = true := by
    rw [hregs regIM (by decide), his]
    simpa using hmask
  rw [beforeFetch, interruptStep_of_some hon (lowestLine_eq_some hpending fun j hj => absurd hj (by omega))]

end Sys2Proof.Machine
end

section
/-! The statements about every instruction (10_state.md, 20_memory.md, 40_dispatch.md R105): each field of the state
after `exec`, said once over the shapes of `Effect`. -/

namespace Sys2Proof.Machine

variable {i : Instr} {s t : State} {a b : Byte} {f : CoreFault}

/-! ### An answer for every instruction -/

theorem withReg_next {k : Fin 8 → Result} (hk : ∀ x, ∃ t, k x = .next t) : ∃ t, withReg a s k = .next t := by
  rcases withReg_cases (a := a) (s := s) (k := k) with ⟨h, e⟩ | ⟨-, e⟩
  · exact e ▸ hk _
  · exact ⟨_, e⟩

theorem withRegs_next {kk : Fin 8 → Fin 8 → Result} (hk : ∀ x y, ∃ t, kk x y = .next t) :
    ∃ t, withRegs a b s kk = .next t :=
  withReg_next fun x => withReg_next fun y => hk x y

theorem divideAlu_next (g : Byte → Byte → Byte) : ∃ t, divideAlu g a b s = .next t :=
  withRegs_next fun x y => by split <;> exact ⟨_, rfl⟩

/-- No meaning faults outside STATUS or is refused (40_dispatch.md R109). -/
theorem exec_next (i : Instr) (s : State) : ∃ t, exec i s = .next t := by
  cases i with
  | hlt | ret | iret => exact ⟨_, rfl⟩
  | call a => exact withReg_next fun x => by split <;> exact ⟨_, rfl⟩
  | div a b => exact divideAlu_next _
  | mod a b => exact divideAlu_next _
  | push a | pop a | prn a | jmp a | jeq a | jne a | jgt a | jlt a | jle a | jge a | inc a | dec a | not a
  | ldi a v => exact withReg_next fun _ => ⟨_, rfl⟩
  | add a b | sub a b | mul a b | cmp a b | and a b | or a b | xor a b | shl a b | shr a b =>
    exact withRegs_next fun _ _ => ⟨_, rfl⟩

/-! ### The register checks of every instruction -/

/-- A meaning checks the register operands of its instruction before anything else (60_exceptions.md R207). -/
theorem exec_checks_operands (i : Instr) :
    i.registerOperands = [] ∨
    (∃ a, ∃ k : State → Fin 8 → Result, i.registerOperands = [a] ∧ ∀ s, exec i s = withReg a s (k s)) ∨
    (∃ a b, ∃ kk : State → Fin 8 → Fin 8 → Result,
      i.registerOperands = [a, b] ∧ ∀ s, exec i s = withRegs a b s (kk s)) := by
  cases i with
  | hlt | ret | iret => exact .inl rfl
  | push a | pop a | prn a | call a | jmp a | jeq a | jne a | jgt a | jlt a | jle a | jge a | inc a | dec a
  | not a | ldi a v => exact .inr (.inl ⟨a, _, rfl, fun _ => rfl⟩)
  | add a b | sub a b | mul a b | div a b | mod a b | cmp a b | and a b | or a b | xor a b | shl a b
  | shr a b => exact .inr (.inr ⟨a, b, _, rfl, fun _ => rfl⟩)

/-- An ill-formed instruction reports its first register operand over 7 (60_exceptions.md R206, R207). -/
theorem exec_of_ill_formed (h : i.wf = false) (s : State) :
    ∃ r, i.registerOperands.find? (fun r => decide (7 < r.toNat)) = some r ∧
      exec i s = .next (raise (.registerIndexFault r) s) := by
  rcases exec_checks_operands i with hops | ⟨a, k, hops, hexec⟩ | ⟨a, b, kk, hops, hexec⟩
  · simp [Instr.wf, hops] at h
  · have ha : 7 < a.toNat := by simpa [Instr.wf, hops] using h
    exact ⟨a, by simp [hops, ha], by rw [hexec, withReg_bad ha]⟩
  · by_cases ha : 7 < a.toNat
    · exact ⟨a, by simp [hops, ha], by rw [hexec, withRegs, withReg_bad ha]⟩
    · have hb : 7 < b.toNat := by simpa [Instr.wf, hops, Nat.not_lt.1 ha] using h
      exact ⟨b, by simp [hops, ha, hb], by
        rw [hexec, withRegs, withReg_ok (Nat.not_lt.1 ha), withReg_bad hb]⟩

/-! ### The fields after an instruction -/

/-- IRET is the one instruction that writes IE, and none writes the parameters or the tick input. -/
theorem Effect.gate (h : Effect i s t) :
    (i ≠ .iret → t.ie = s.ie) ∧ t.cfg = s.cfg ∧ t.ticks = s.ticks := by
  cases h with
  | iret =>
    obtain ⟨-, -, -, hcfg, hticks, -, -⟩ := returnFromInterrupt_fields (s := s)
    exact ⟨fun hne => absurd rfl hne, hcfg, hticks⟩
  | _ => exact ⟨fun _ => rfl, rfl, rfl⟩

theorem Effect.fl (h : Effect i s t) (hcmp : ∀ a b, i ≠ .cmp a b) (hiret : i ≠ .iret) : t.fl = s.fl := by
  cases h with
  | iret => exact absurd rfl hiret
  | cmp v => exact absurd rfl (hcmp _ _)
  | _ => rfl

/-- PRN and a division by zero emit one event, the others none. -/
theorem Effect.out (h : Effect i s t) : t.out = s.out ∨ ∃ e, t.out = s.out ++ [e] := by
  cases h with
  | prn h => exact .inr ⟨_, rfl⟩
  | divideByZero a b h => exact .inr ⟨_, rfl⟩
  | badRegister _ _ => exact .inl (List.append_nil _)
  | callFault _ _ => exact .inl (List.append_nil _)
  | iret =>
    obtain ⟨-, -, hout, -, -, -, -⟩ := returnFromInterrupt_fields (s := s)
    exact .inl hout
  | _ => exact .inl rfl

/-- Memory is as before, or it is that of one Push by PUSH or CALL. -/
theorem Effect.mem (h : Effect i s t) :
    t.mem = s.mem ∨ ∃ a v, (i = .push a ∨ i = .call a) ∧ t.mem = (Machine.push v s).mem := by
  cases h with
  | push h => exact .inr ⟨_, _, .inl rfl, rfl⟩
  | call h _ => exact .inr ⟨_, _, .inr rfl, rfl⟩
  | iret =>
    obtain ⟨-, -, -, -, -, hmem, -⟩ := returnFromInterrupt_fields (s := s)
    exact .inl hmem
  | _ => exact .inl rfl

/-- Every instruction keeps the canonical form of memory. -/
theorem Effect.mem_wf (h : Effect i s t) (hwf : s.mem.wf = true) : t.mem.wf = true := by
  rcases h.mem with hmem | ⟨a, v, -, hmem⟩
  · rw [hmem, hwf]
  · rw [hmem, push_wf hwf]

/-! ### The registers after an instruction -/

theorem slotOf_eq (h : a.toNat ≤ 7) : slotOf a = [slot a h] := by rw [slotOf, checkReg_ok h]

theorem writtenRegs_of_unary (h : i ∈ [Instr.inc a, .dec a, .not a]) : writtenRegs i = slotOf a := by
  simp only [List.mem_cons, List.not_mem_nil, or_false] at h
  rcases h with rfl | rfl | rfl <;> rfl

theorem writtenRegs_of_binary
    (h : i ∈ [Instr.ldi a b, .add a b, .sub a b, .mul a b, .div a b, .mod a b, .and a b, .or a b, .xor a b,
      .shl a b, .shr a b]) : writtenRegs i = slotOf a := by
  simp only [List.mem_cons, List.not_mem_nil, or_false] at h
  rcases h with rfl | rfl | rfl | rfl | rfl | rfl | rfl | rfl | rfl | rfl | rfl <;> rfl

theorem mem_written_by_iret (r : Fin 8) : r ∈ regSP :: restoredRegs := by
  revert r
  decide

theorem Effect.regs (h : Effect i s t) : RegsSameExcept (writtenRegs i) s t := by
  intro r hr
  cases h with
  | ret => exact popState_reg (List.ne_of_not_mem_cons hr)
  | iret => exact absurd (mem_written_by_iret r) hr
  | push h => rw [advance_reg, push_reg (List.ne_of_not_mem_cons hr)]
  | call h _ => rw [setPc_reg, push_reg (List.ne_of_not_mem_cons hr)]
  | @pop _ a h =>
    obtain ⟨hsp, hslot⟩ := List.ne_and_not_mem_of_not_mem_cons hr
    rw [slotOf_eq h] at hslot
    exact popReg_reg (List.ne_of_not_mem_cons hslot) hsp
  | unary a v h hi =>
    rw [writtenRegs_of_unary hi, slotOf_eq h] at hr
    exact reg_setReg_ne (List.ne_of_not_mem_cons hr)
  | binary a b v h hi =>
    rw [writtenRegs_of_binary hi, slotOf_eq h] at hr
    exact reg_setReg_ne (List.ne_of_not_mem_cons hr)
  | _ => rfl

/-! ### STATUS after an instruction -/

/-- From a running state an instruction leaves STATUS Running, halts by HLT or a zero divisor, or faults by a bad
register byte or a CALL whose return address does not fit a byte. -/
theorem Effect.status_cases (h : Effect i s t) (hrun : s.status = .running) :
    t.status = .running ∨
    (i = .hlt ∧ t = advance 1 (halt .hlt s)) ∨
    t = advance 3 (halt .divByZero (emit (.diag .divByZero) s)) ∨
    (∃ r, i.wf = false ∧ i.registerOperands.find? (fun r => decide (7 < r.toNat)) = some r ∧
      t = raise (.registerIndexFault r) s) ∨
    (255 < s.pc + 2 ∧ t = raise (.addressError (s.pc + 2)) s) := by
  cases h with
  | hlt => exact .inr (.inl ⟨rfl, rfl⟩)
  | divideByZero a b h => exact .inr (.inr (.inl rfl))
  | badRegister hwf hfind => exact .inr (.inr (.inr (.inl ⟨_, hwf, hfind, rfl⟩)))
  | callFault _ hpc => exact .inr (.inr (.inr (.inr ⟨hpc, rfl⟩)))
  | iret =>
    obtain ⟨-, hstatus, -, -, -, -, -⟩ := returnFromInterrupt_fields (s := s)
    exact .inl (hstatus.trans hrun)
  | _ => exact .inl hrun

/-! ### PC after an instruction -/

/-- A jump goes to a byte address or past itself. -/
theorem jump_pc {n : Nat}
    (hi : i ∈ [Instr.jmp a, .jeq a, .jne a, .jgt a, .jlt a, .jle a, .jge a]) (hn : n ≤ 255 ∨ n = s.pc + 2) :
    i.mnemonic.isControlTransfer = true ∧ (n ≤ 255 ∨ n = s.pc + i.length) := by
  simp only [List.mem_cons, List.not_mem_nil, or_false] at hi
  rcases hi with rfl | rfl | rfl | rfl | rfl | rfl | rfl <;> exact ⟨rfl, hn⟩

theorem length_of_unary (hi : i ∈ [Instr.inc a, .dec a, .not a]) :
    i.mnemonic.isControlTransfer = false ∧ i.length = 2 := by
  simp only [List.mem_cons, List.not_mem_nil, or_false] at hi
  rcases hi with rfl | rfl | rfl <;> exact ⟨rfl, rfl⟩

theorem length_of_binary
    (hi : i ∈ [Instr.ldi a b, .add a b, .sub a b, .mul a b, .div a b, .mod a b, .and a b, .or a b, .xor a b,
      .shl a b, .shr a b]) : i.mnemonic.isControlTransfer = false ∧ i.length = 3 := by
  simp only [List.mem_cons, List.not_mem_nil, or_false] at hi
  rcases hi with rfl | rfl | rfl | rfl | rfl | rfl | rfl | rfl | rfl | rfl | rfl <;> exact ⟨rfl, rfl⟩

/-- PC stays at a fault, goes past an instruction that is no control transfer, and to a byte address or past itself
for one that is (40_dispatch.md R106). -/
theorem Effect.pc (h : Effect i s t) :
    (t.pc = s.pc ∧ ∃ f, t.status = .faulted f) ∨
    (i.mnemonic.isControlTransfer = false ∧ t.pc = s.pc + i.length) ∨
    (i.mnemonic.isControlTransfer = true ∧ (t.pc ≤ 255 ∨ t.pc = s.pc + i.length)) := by
  cases h with
  | badRegister _ _ => exact .inl ⟨rfl, _, rfl⟩
  | callFault _ _ => exact .inl ⟨rfl, _, rfl⟩
  | hlt | push h | pop h | prn h | cmp v => exact .inr (.inl ⟨rfl, rfl⟩)
  | divideByZero a b h => exact .inr (.inl (by rcases h with rfl | rfl <;> exact ⟨rfl, rfl⟩))
  | unary a v h hi =>
    obtain ⟨hct, hlen⟩ := length_of_unary hi
    exact .inr (.inl ⟨hct, hlen ▸ rfl⟩)
  | binary a b v h hi =>
    obtain ⟨hct, hlen⟩ := length_of_binary hi
    exact .inr (.inl ⟨hct, hlen ▸ rfl⟩)
  | ret => exact .inr (.inr ⟨rfl, .inl (Nat.le_of_lt_succ (BitVec.isLt _))⟩)
  | call h _ => exact .inr (.inr ⟨rfl, .inl (Nat.le_of_lt_succ (BitVec.isLt _))⟩)
  | iret =>
    obtain ⟨-, -, -, -, -, -, hpc⟩ := returnFromInterrupt_fields (s := s)
    exact .inr (.inr ⟨rfl, .inl hpc⟩)
  | jump a n hi hn => exact .inr (.inr (jump_pc hi hn))

/-- Faulted or not, PC after an instruction that ends in memory is at most 256. -/
theorem Effect.pc_le (h : Effect i s t) (hin : s.pc + i.length ≤ 256) : t.pc ≤ 256 := by
  rcases h.pc with ⟨hpc, -⟩ | ⟨-, hpc⟩ | ⟨-, hpc | hpc⟩ <;> omega

/-! ### The statements -/

/-- Settles O21: the register frame of every shape of effect. -/
theorem instructionsWriteOnlyTheirRegisters : Obligations.InstructionsWriteOnlyTheirRegisters :=
  fun _ _ _ h => (exec_effect h).regs

/-- Settles O22: memory changes by one Push at most, and only PUSH and CALL push. -/
theorem onlyPushAndCallStore : Obligations.OnlyPushAndCallStore := by
  intro i s t h
  rcases (exec_effect h).mem with hmem | ⟨a, v, hi, hmem⟩
  · exact ⟨fun _ a => by rw [hmem], fun _ a _ => by rw [hmem]⟩
  · refine ⟨fun hne => ?_, fun hwf b hb => ?_⟩
    · exact absurd hi (not_or.2 (hne a))
    · rw [hmem, push_memSameExcept v hwf b hb]

/-- Settles O23: CMP and IRET are the only shapes of effect that write FL. -/
theorem onlyCmpAndIretWriteFl : Obligations.OnlyCmpAndIretWriteFl :=
  fun _ _ _ h => (exec_effect h).fl

/-- Settles O24: IRET is the only shape of effect that writes IE. -/
theorem onlyIretWritesIe : Obligations.OnlyIretWritesIe :=
  fun _ _ _ h => (exec_effect h).gate

/-- Settles O26: the cases of PC after an instruction, without the one of a fault. -/
theorem pcAdvancesByLengthOrJumps : Obligations.PcAdvancesByLengthOrJumps := by
  intro i s t h hok
  rcases (exec_effect h).pc with ⟨-, f, hf⟩ | ⟨hct, hpc⟩ | ⟨hct, hpc⟩
  · exact absurd hf (hok f)
  · exact ⟨fun _ => hpc, fun h => absurd (hct.symm.trans h) (by decide)⟩
  · exact ⟨fun h => absurd (hct.symm.trans h) (by decide), fun _ => hpc⟩

/-- Settles O27: the two faults of the handlers emit no event. -/
theorem handlerFaultChangesOnlyStatus : Obligations.HandlerFaultChangesOnlyStatus := by
  intro i s t f hrun h hf
  rcases (exec_effect h).status_cases hrun with
    hrun' | ⟨-, rfl⟩ | rfl | ⟨r, -, -, rfl⟩ | ⟨-, rfl⟩
  · cases hrun'.symm.trans hf
  · cases hf
  · cases hf
  · cases hf
    exact raise_registerIndexFault
  · cases hf
    exact raise_addressError _ s

/-- Settles O28: the register checks come first, and no other fault or halt of a handler is a bad register byte. -/
theorem illFormedInstructionsFault : Obligations.IllFormedInstructionsFault := by
  refine fun i s => ⟨fun hwf => ?_, fun hwf hrun t r h hf => ?_⟩
  · obtain ⟨r, hr, hexec⟩ := exec_of_ill_formed hwf s
    exact ⟨r, hr, by rw [hexec, raise_registerIndexFault]⟩
  · rcases (exec_effect h).status_cases hrun with
      hrun' | ⟨-, rfl⟩ | rfl | ⟨_, hbad, -, rfl⟩ | ⟨-, rfl⟩
    · cases hrun'.symm.trans hf
    · cases hf
    · cases hf
    · cases hwf.symm.trans hbad
    · cases hf

end Sys2Proof.Machine
end

section
/-! The statements about every step (40_dispatch.md R100, R107 to R109), from what steps 1 and 2, the fetch and the
instruction each leave alone. -/

namespace Sys2Proof.Machine

variable {s t u : State} {i : Instr} {f : CoreFault}

/-- A fault emits at most one event (60_exceptions.md R202). -/
theorem raise_emits_at_most_one (f : CoreFault) (s : State) :
    (raise f s).out = s.out ∨ ∃ e, (raise f s).out = s.out ++ [e] := by
  cases f with
  | unknownOpcodeFault op p => exact .inr ⟨_, rfl⟩
  | addressError a => exact .inl (List.append_nil _)
  | registerIndexFault r => exact .inl (List.append_nil _)

/-- Settles O14: each stage of the cycle answers a next state, a fault among them. -/
theorem runningStateHasNextState : Obligations.RunningStateHasNextState := by
  intro s hrun
  cases hbefore : beforeFetch s with
  | error f => exact ⟨_, step_of_beforeFetch_error hrun hbefore⟩
  | ok t =>
    cases hfetch : fetch t with
    | error f => exact ⟨_, step_of_fetch_error hrun hbefore hfetch⟩
    | ok i =>
      rw [step_of_fetch_ok hrun hbefore hfetch]
      exact exec_next i t

/-- Settles O15: the two terminal forms of STATUS. -/
theorem terminalStateTakesNoCycle : Obligations.TerminalStateTakesNoCycle := by
  intro s hstop
  rw [step]
  cases hstatus : s.status with
  | running => exact absurd hstatus hstop
  | halted c => rfl
  | faulted f => rfl

/-- Settles O17: only the last stage of a step emits, a fault or the instruction, and it emits one event at most. -/
theorem stepEmitsAtMostOneEvent : Obligations.StepEmitsAtMostOneEvent := by
  intro s u h
  obtain ⟨-, ⟨f, -, rfl⟩ | ⟨t, f, hbefore, -, rfl⟩ | ⟨t, i, hbefore, -, hexec⟩⟩ := step_cases h
  · obtain ⟨-, -, -, -, hout, -, -, -⟩ := afterTimer_fields (s := s)
    rw [← hout]
    exact raise_emits_at_most_one f _
  · obtain ⟨-, hout, -, -, -, -, -⟩ := beforeFetch_fields hbefore
    rw [← hout]
    exact raise_emits_at_most_one f t
  · obtain ⟨-, hout, -, -, -, -, -⟩ := beforeFetch_fields hbefore
    rw [← hout]
    exact (exec_effect hexec).out

/-- Settles O18: steps 1 and 2 consume the tick, and no stage writes the parameters. -/
theorem stepConsumesOneTick : Obligations.StepConsumesOneTick := by
  intro s u h
  obtain ⟨-, ⟨f, -, rfl⟩ | ⟨t, f, hbefore, -, rfl⟩ | ⟨t, i, hbefore, -, hexec⟩⟩ := step_cases h
  · obtain ⟨-, -, -, -, -, hcfg, hticks, -⟩ := afterTimer_fields (s := s)
    exact ⟨hcfg, hticks⟩
  · obtain ⟨-, -, hcfg, hticks, -, -, -⟩ := beforeFetch_fields hbefore
    exact ⟨hcfg, hticks⟩
  · obtain ⟨-, -, hcfg, hticks, -, -, -⟩ := beforeFetch_fields hbefore
    obtain ⟨-, hcfg', hticks'⟩ := (exec_effect hexec).gate
    exact ⟨hcfg'.trans hcfg, hticks'.trans hticks⟩

/-- Settles O20: a fault leaves PC, and an instruction that the fetch answered ends at or below address 255. -/
theorem pcNeverPasses256 : Obligations.PcNeverPasses256 := by
  intro s u hpc h
  obtain ⟨-, ⟨f, -, rfl⟩ | ⟨t, f, hbefore, -, rfl⟩ | ⟨t, i, hbefore, hfetch, hexec⟩⟩ := step_cases h
  · obtain ⟨hpc', -⟩ := afterTimer_fields (s := s)
    rw [raise_pc, hpc']
    exact hpc
  · obtain ⟨-, -, -, -, hpc', -, -⟩ := beforeFetch_fields hbefore
    rw [raise_pc]
    omega
  · exact (exec_effect hexec).pc_le (standsAt_of_fetch hfetch).1

/-- Settles O25: IE rises in step 1, or in an instruction, which is then IRET. -/
theorem ieRisesOnlyByTickOrIret : Obligations.IeRisesOnlyByTickOrIret := by
  intro s u h hoff hon
  obtain ⟨-, ⟨f, -, rfl⟩ | ⟨t, f, hbefore, -, rfl⟩ | ⟨t, i, hbefore, hfetch, hexec⟩⟩ := step_cases h
  · exact .inl (tick_of_afterTimer_ie hoff hon)
  · obtain ⟨-, -, -, -, -, -, hie⟩ := beforeFetch_fields hbefore
    exact .inl (tick_of_afterTimer_ie hoff (hie hon))
  · obtain ⟨-, -, -, -, -, -, hie⟩ := beforeFetch_fields hbefore
    obtain ⟨hsame, -⟩ := (exec_effect hexec).gate
    by_cases hiret : i = .iret
    · obtain ⟨rest, hdec⟩ := fetch_eq_ok_iff.1 hfetch
      exact .inr ⟨t, rest, hbefore, hiret ▸ hdec⟩
    · exact .inl (tick_of_afterTimer_ie hoff (hie (hsame hiret ▸ hon)))

end Sys2Proof.Machine
end

section
/-! The invariant (10_state.md R28, R33, R34; 60_exceptions.md R200, R202): each way a step can end keeps it. -/

namespace Sys2Proof.Machine

variable {s t u : State} {i : Instr} {f : CoreFault}

/-! ### Running states -/

theorem statusInfo_of_running (h : s.status = .running) : StatusInfo s := by
  rw [StatusInfo, h]
  trivial

/-- Steps 1 and 2 keep the invariant, and STATUS stays Running. -/
theorem beforeFetch_keeps_inv (hi : s.Inv) (hrun : s.status = .running) (hbefore : beforeFetch s = .ok t) :
    t.Inv ∧ t.status = .running := by
  obtain ⟨hwf, hpc, hmap, -⟩ := hi
  obtain ⟨hstatus, -, hcfg, -, hpc', hwf', -⟩ := beforeFetch_fields hbefore
  have hrun' : t.status = .running := hstatus.trans hrun
  exact ⟨⟨hwf' hwf, by omega, hcfg ▸ hmap, statusInfo_of_running hrun'⟩, hrun'⟩

/-! ### Faults of the entry and of the fetch -/

/-- A raised fault keeps the invariant when what it records is true. -/
theorem raise_keeps_inv (hi : s.Inv) (hinfo : StatusInfo (raise f s)) : (raise f s).Inv := by
  obtain ⟨hwf, hpc, hmap, -⟩ := hi
  exact ⟨hwf, hpc, hmap, hinfo⟩

theorem statusInfo_raise_addressError {a : Nat} (htop : 255 < a) (hlo : s.pc ≤ a) (hhi : a ≤ s.pc + 2) :
    StatusInfo (raise (.addressError a) s) := ⟨htop, hlo, hhi⟩

/-- The decoder rejects an opcode for its count, or because it is the byte of no mnemonic: under an admissible map
the builder never fails (log entry 14). -/
theorem unknown_of_decode {m : OpcodeMap} {op op' : Byte} {rest : List Byte} (hm : m.admissible = true)
    (h : decode m (op :: rest) = .error (.unknownOpcode op')) :
    op' = op ∧ (countField op = 3 ∨ m.lookup op = none) := by
  rcases decode_cases (m := m) (op := op) (rest := rest) with
    ⟨hcount, hdec⟩ | ⟨-, -, hdec⟩ | ⟨-, hlen, ⟨k, i, -, -, hdec⟩ | ⟨hnone, hdec⟩⟩
  · cases hdec.symm.trans h
    exact ⟨rfl, .inl hcount⟩
  · cases hdec.symm.trans h
  · cases hdec.symm.trans h
  · cases hdec.symm.trans h
    refine ⟨rfl, .inr ?_⟩
    cases hlookup : m.lookup op with
    | none => rfl
    | some k =>
      obtain ⟨hcount, -⟩ := OpcodeMap.admissible_iff.1 hm k
      rw [OpcodeMap.byte_of_lookup hlookup] at hcount
      obtain ⟨i, hbuild⟩ := Mnemonic.build_isSome (k := k) (ops := rest.take (countField op))
        (by rw [List.length_take, Nat.min_eq_left hlen, hcount])
      rw [hlookup, Option.bind_some, hbuild] at hnone
      cases hnone

/-- A byte the decoder misses is byte `k` behind `k` bytes that are there, and `k` is at most 2. -/
theorem truncated_of_decode {m : OpcodeMap} {bs : List Byte} {k : Nat}
    (h : decode m bs = .error (.truncated k)) : k = bs.length ∧ k ≤ 2 := by
  cases bs with
  | nil =>
    cases h
    exact ⟨rfl, by decide⟩
  | cons op rest =>
    rcases decode_cases (m := m) (op := op) (rest := rest) with
      ⟨-, hdec⟩ | ⟨hcount, hshort, hdec⟩ | ⟨-, -, ⟨_, i, -, -, hdec⟩ | ⟨-, hdec⟩⟩
    · cases hdec.symm.trans h
    · cases hdec.symm.trans h
      have := countField_le op
      exact ⟨rfl, by omega⟩
    · cases hdec.symm.trans h
    · cases hdec.symm.trans h

/-- What a fault of the fetch records is true (60_exceptions.md R201, R205). -/
theorem statusInfo_raise_fetch (hm : s.cfg.opcodeMap.admissible = true) (hfetch : fetch s = .error f) :
    StatusInfo (raise f s) := by
  rw [fetch] at hfetch
  split at hfetch
  · cases hfetch
  next e hdec =>
    cases hfetch
    by_cases hpc : s.pc ≤ 255
    · obtain ⟨rest, hwindow, hlen⟩ := window_eq_cons hpc
      cases e with
      | unknownOpcode op =>
        rw [hwindow] at hdec
        obtain ⟨rfl, hunknown⟩ := unknown_of_decode hm hdec
        exact ⟨rfl, hpc, rfl, hunknown, List.getLast?_concat⟩
      | truncated k =>
        obtain ⟨hk, hle⟩ := truncated_of_decode hdec
        rw [hwindow, List.length_cons] at hk
        exact statusInfo_raise_addressError (by omega) (by omega) (by omega)
    · rw [State.window, fetchWindow_out (by omega)] at hdec
      cases hdec
      exact statusInfo_raise_addressError (by omega) (by omega) (by omega)

/-! ### The end of an instruction -/

theorem mem_operands_of_mem_registerOperands {r : Byte} (h : r ∈ i.registerOperands) : r ∈ i.operands := by
  cases i with
  | ldi a v =>
    obtain rfl := List.mem_singleton.1 h
    exact List.mem_cons_self
  | _ => exact h

/-- An operand byte of the instruction at PC stands in one of the two cells behind the opcode. -/
theorem operand_stands_behind_pc {r : Byte} (hat : StandsAt s s.pc i) (hr : r ∈ i.operands) :
    s.mem.read (s.pc + 1) = r ∨ s.mem.read (s.pc + 2) = r := by
  obtain ⟨-, hbytes⟩ := hat
  obtain ⟨j, hj, rfl⟩ := List.getElem_of_mem hr
  have hlen := i.operands_length
  have hle := i.mnemonic.format.operandCount_le
  have hbyte := hbytes (j + 1) (by rw [encode, List.length_cons]; omega)
  obtain rfl | rfl : j = 0 ∨ j = 1 := by omega
  · exact .inl hbyte
  · exact .inr hbyte

/-- The opcode byte of the instruction at PC. -/
theorem opcode_stands_at_pc (hat : StandsAt s s.pc i) : s.mem.read s.pc = s.cfg.opcodeMap.byte i.mnemonic := by
  obtain ⟨-, hbytes⟩ := hat
  exact hbytes 0 (Nat.succ_pos _)

/-- What STATUS records after an instruction is true (60_exceptions.md R200 to R206). -/
theorem Effect.statusInfo (h : Effect i s t) (hrun : s.status = .running) (hat : StandsAt s s.pc i) :
    StatusInfo t := by
  rcases h.status_cases hrun with hrun' | ⟨rfl, rfl⟩ | rfl | ⟨r, -, hfind, rfl⟩ | ⟨hpc, rfl⟩
  · exact statusInfo_of_running hrun'
  · exact ⟨Nat.le_add_left 1 s.pc, opcode_stands_at_pc hat⟩
  · exact List.getLast?_concat
  · have hbad : 7 < r.toNat := by simpa using List.find?_some hfind
    have hr := mem_operands_of_mem_registerOperands (List.mem_of_find?_eq_some hfind)
    exact ⟨hbad, operand_stands_behind_pc hat hr⟩
  · exact statusInfo_raise_addressError hpc (Nat.le_add_right _ _) le_rfl

/-- An instruction that stands at PC keeps the invariant. -/
theorem exec_keeps_inv (hi : s.Inv) (hrun : s.status = .running) (hat : StandsAt s s.pc i)
    (hexec : exec i s = .next t) : t.Inv := by
  obtain ⟨hwf, -, hmap, -⟩ := hi
  have heffect := exec_effect hexec
  obtain ⟨-, hcfg, -⟩ := heffect.gate
  have hpc := heffect.pc_le hat.1
  exact ⟨heffect.mem_wf hwf, by omega, hcfg ▸ hmap, heffect.statusInfo hrun hat⟩

/-! ### The statement -/

/-- Settles O16: a step ends by the fault of an entry, by the fault of a fetch, or by the instruction that stands at
PC, and each keeps the invariant of the state it is raised or run in. -/
theorem stepKeepsInvariant : Obligations.StepKeepsInvariant := by
  intro s u hi h
  obtain ⟨hrun, ⟨f, hbefore, rfl⟩ | ⟨t, f, hbefore, hfetch, rfl⟩ | ⟨t, i, hbefore, hfetch, hexec⟩⟩ :=
    step_cases h
  · obtain ⟨hwf, hpc, hmap, -⟩ := hi
    obtain ⟨htop, rfl⟩ := beforeFetch_eq_error hbefore
    obtain ⟨hpc', -, -, hmem, -, hcfg, -, -⟩ := afterTimer_fields (s := s)
    exact ⟨hmem ▸ hwf, hpc' ▸ hpc, hcfg ▸ hmap,
      statusInfo_raise_addressError htop (by omega) (by omega)⟩
  · obtain ⟨hi', -⟩ := beforeFetch_keeps_inv hi hrun hbefore
    exact raise_keeps_inv hi' (statusInfo_raise_fetch hi'.mapAdmissible hfetch)
  · obtain ⟨hi', hrun'⟩ := beforeFetch_keeps_inv hi hrun hbefore
    exact exec_keeps_inv hi' hrun' (standsAt_of_fetch hfetch) hexec

end Sys2Proof.Machine
end

section
/-! The statements about the other ALU instructions (41_alu.md R124, R125, R128, R132 to R134). -/

namespace Sys2Proof.Machine

variable {f : Byte → Byte → Byte} {x y : Fin 8} {s : State}

/-! ### NOT, SHL and SHR -/

theorem exec_not (a : Byte) (s : State) : exec (.not a) s = unaryAlu aluNot a s := rfl
theorem exec_shl (a b : Byte) (s : State) : exec (.shl a b) s = binaryAlu aluShl a b s := rfl
theorem exec_shr (a b : Byte) (s : State) : exec (.shr a b) s = binaryAlu aluShr a b s := rfl

/-- The count is the whole byte, and every bit is out at 8 (41_alu.md R132). -/
theorem aluShl_eq_ite (v w : Byte) : aluShl v w = if 8 ≤ w.toNat then 0 else v <<< w.toNat := by
  split
  · exact aluShl_big v w ‹_›
  · exact aluShl_eq v w

/-- The count is the whole byte, and every bit is out at 8 (41_alu.md R133). -/
theorem aluShr_eq_ite (v w : Byte) : aluShr v w = if 8 ≤ w.toNat then 0 else v >>> w.toNat := by
  split
  · exact aluShr_big v w ‹_›
  · exact aluShr_eq v w

/-- Settles O32: the shapes of the ALU with the complement and the two shifts. -/
theorem notShlShrResults : Obligations.NotShlShrResults :=
  ⟨unaryResult_of_unaryAlu exec_not aluNot_eq,
    binaryResult_of_binaryAlu exec_shl aluShl_eq_ite, binaryResult_of_binaryAlu exec_shr aluShr_eq_ite,
    indexFault1_of_unaryAlu exec_not, indexFault2_of_binaryAlu exec_shl, indexFault2_of_binaryAlu exec_shr⟩

/-! ### DIV and MOD -/

theorem exec_div (a b : Byte) (s : State) : exec (.div a b) s = divideAlu aluDiv a b s := rfl
theorem exec_mod (a b : Byte) (s : State) : exec (.mod a b) s = divideAlu aluMod a b s := rfl

theorem divideAlu_of_ne_zero (h : s.reg y ≠ 0) :
    divideAlu f (regByte x) (regByte y) s = .next (advance 3 (s.setReg x (f (s.reg x) (s.reg y)))) := by
  rw [divideAlu, withRegs_regByte, if_neg h]

theorem divideAlu_of_zero (h : s.reg y = 0) :
    divideAlu f (regByte x) (regByte y) s =
      .next (advance 3 (halt .divByZero (emit (.diag .divByZero) s))) := by
  rw [divideAlu, withRegs_regByte, if_pos h]

/-- Settles O33: the exact quotient and remainder fit a byte, and the division algorithm relates them. -/
theorem divModResults : Obligations.DivModResults := by
  refine ⟨fun x y s hy => ?_, indexFault2_of_withRegs _ exec_div, indexFault2_of_withRegs _ exec_mod⟩
  have hpos : 0 < (s.reg y).toNat := Nat.pos_of_ne_zero fun h => hy (BitVec.eq_of_toNat_eq h)
  refine ⟨advance 3 (s.setReg x (aluDiv (s.reg x) (s.reg y))), advance 3 (s.setReg x (aluMod (s.reg x) (s.reg y))),
    divideAlu_of_ne_zero hy, divideAlu_of_ne_zero hy, ?_, ?_, rfl, onlyRegs_advance_setReg .., rfl,
    onlyRegs_advance_setReg ..⟩
  · rw [advance_reg, advance_reg, reg_setReg_same, reg_setReg_same, aluDiv_toNat, aluMod_toNat, Nat.div_add_mod']
  · rw [advance_reg, reg_setReg_same, aluMod_toNat]
    exact Nat.mod_lt _ hpos

/-- Settles O34: the halt writes STATUS, the output stream and PC alone. -/
theorem divModByZeroHalts : Obligations.DivModByZeroHalts := by
  intro x y s i hi hy
  have hexec : exec (i (regByte x) (regByte y)) s =
      .next (advance 3 (halt .divByZero (emit (.diag .divByZero) s))) := by
    rcases hi with rfl | rfl
    · exact divideAlu_of_zero hy
    · exact divideAlu_of_zero hy
  exact ⟨_, hexec, rfl, rfl, rfl, fun _ _ => rfl, rfl, fun _ => rfl, rfl, rfl, rfl⟩

/-! ### CMP -/

theorem exec_cmp (a b : Byte) (s : State) : exec (.cmp a b) s = withRegs a b s fun x y =>
    .next (advance 3 { s with fl := compareFlags (s.reg x) (s.reg y) }) := rfl

theorem exec_cmp_regByte : exec (.cmp (regByte x) (regByte y)) s =
    .next (advance 3 { s with fl := compareFlags (s.reg x) (s.reg y) }) := by
  rw [exec_cmp, withRegs_regByte]

/-- The flag byte tells the order of the operands (41_alu.md R134). -/
theorem compareFlags_iff (v w : Byte) :
    (compareFlags v w = 1 ↔ v = w) ∧ (compareFlags v w = 2 ↔ w.toNat < v.toNat) ∧
    (compareFlags v w = 4 ↔ v.toNat < w.toNat) := by
  rw [show v = w ↔ v.toNat = w.toNat from BitVec.toNat_inj.symm]
  rcases Nat.lt_trichotomy v.toNat w.toNat with h | h | h
  · have hfl : compareFlags v w = 4 := by rw [compareFlags, if_neg (by omega), if_neg (by omega), flLess]
    rw [hfl]
    exact ⟨iff_of_false (by decide) (by omega), iff_of_false (by decide) (by omega), iff_of_true rfl h⟩
  · have hfl : compareFlags v w = 1 := by rw [compareFlags, if_pos h, flEqual]
    rw [hfl]
    exact ⟨iff_of_true rfl h, iff_of_false (by decide) (by omega), iff_of_false (by decide) (by omega)⟩
  · have hfl : compareFlags v w = 2 := by rw [compareFlags, if_neg (by omega), if_pos h, flGreater]
    rw [hfl]
    exact ⟨iff_of_false (by decide) (by omega), iff_of_true rfl h, iff_of_false (by decide) (by omega)⟩

/-- Settles O35: CMP writes the flag byte of the two values, and FL and PC alone. -/
theorem cmpSetsOneOfThreeFlags : Obligations.CmpSetsOneOfThreeFlags := by
  refine ⟨fun x y s => ?_, indexFault2_of_withRegs _ exec_cmp⟩
  obtain ⟨heq, hgt, hlt⟩ := compareFlags_iff (s.reg x) (s.reg y)
  exact ⟨_, exec_cmp_regByte, heq, hgt, hlt, rfl, fun _ _ => rfl, fun _ => rfl,
    ⟨rfl, rfl, rfl⟩, rfl, rfl⟩

end Sys2Proof.Machine
end

section
/-! The statements about PRN, PUSH, POP, CALL, the conditional jumps and HLT (42_data_io.md to 44_control.md). -/

namespace Sys2Proof.Machine

variable {x : Fin 8} {s : State}

/-! ### PRN -/

theorem exec_prn (a : Byte) (s : State) :
    exec (.prn a) s = withReg a s fun x => .next (advance 2 (emit (.out (s.reg x)) s)) := rfl

theorem exec_prn_regByte : exec (.prn (regByte x)) s = .next (advance 2 (emit (.out (s.reg x)) s)) := by
  rw [exec_prn, withReg_regByte]

/-- Settles O37: PRN is one event and the advance of PC. -/
theorem prnEmitsTheValue : Obligations.PrnEmitsTheValue := by
  refine ⟨fun x s => ?_, indexFault1_of_withReg _ exec_prn⟩
  exact ⟨_, exec_prn_regByte, rfl, rfl, rfl, fun _ _ => rfl, rfl, fun _ => rfl, rfl, rfl, rfl⟩

/-! ### PUSH and POP -/

theorem exec_push (a : Byte) (s : State) :
    exec (.push a) s = withReg a s fun x => .next (advance 2 (push (s.reg x) s)) := rfl

theorem exec_pop (a : Byte) (s : State) :
    exec (.pop a) s = withReg a s fun x => .next (advance 2 (popReg x s)) := rfl

theorem exec_push_regByte : exec (.push (regByte x)) s = .next (advance 2 (push (s.reg x) s)) := by
  rw [exec_push, withReg_regByte]

theorem exec_pop_regByte : exec (.pop (regByte x)) s = .next (advance 2 (popReg x s)) := by
  rw [exec_pop, withReg_regByte]

/-- Settles O40: PUSH is one Push of the register's value, and the advance of PC. -/
theorem pushInstructionResult : Obligations.PushInstructionResult := by
  refine ⟨fun x s hwf => ?_, indexFault1_of_withReg _ exec_push⟩
  obtain ⟨hsp, htop, hmem, hregs, hpc, hfl, hgate, hports⟩ := pushStoresBelowSp (s.reg x) s hwf
  exact ⟨_, exec_push_regByte, hsp, htop, rfl, hmem, hregs, hfl, congrArg (· + 2) hpc,
    hgate, hports⟩

/-- The popped register and SP are all that a Pop into a register changes. -/
theorem popReg_regsSameExcept (x : Fin 8) (s : State) : RegsSameExcept [x, regSP] s (popReg x s) := by
  intro r hr
  obtain ⟨hx, hsp⟩ := List.ne_and_not_mem_of_not_mem_cons hr
  exact popReg_reg hx (List.ne_of_not_mem_cons hsp)

/-- Settles O41: POP writes the register after SP, so the popped byte stays in R7 too. -/
theorem popInstructionResult : Obligations.PopInstructionResult := by
  refine ⟨fun x s => ?_, indexFault1_of_withReg _ exec_pop⟩
  refine ⟨advance 2 (popReg x s), exec_pop_regByte, ?_, fun hx => ?_, rfl, ?_⟩
  · rw [advance_reg, popReg_same, popValue_eq]
  · exact popReg_sp hx
  · exact ⟨popReg_regsSameExcept x s, rfl, fun _ => rfl, ⟨rfl, rfl, rfl⟩, rfl, rfl⟩

/-! ### CALL and RET -/

theorem exec_call (a : Byte) (s : State) : exec (.call a) s = withReg a s fun x =>
    if s.pc + 2 > 255 then .next (raise (.addressError (s.pc + 2)) s)
    else .next (setPc (s.reg x).toNat (push (BitVec.ofNat 8 (s.pc + 2)) s)) := rfl

theorem exec_call_of_le (h : s.pc + 2 ≤ 255) : exec (.call (regByte x)) s =
    .next (setPc (s.reg x).toNat (push (BitVec.ofNat 8 (s.pc + 2)) s)) := by
  rw [exec_call, withReg_regByte, if_neg (Nat.not_lt.2 h)]

/-- A number up to 255 is the value of its byte. -/
theorem toNat_ofNat_of_le {n : Nat} (h : n ≤ 255) : (BitVec.ofNat 8 n).toNat = n := by
  rw [BitVec.toNat_ofNat, Nat.mod_eq_of_lt (Nat.lt_succ_of_le h)]

/-- Settles O43: CALL is one Push of a return address that fits a byte, and the write of PC. -/
theorem callPushesTheReturnAddress : Obligations.CallPushesTheReturnAddress := by
  refine ⟨fun x s hwf hpc => ?_, fun x s hpc => ?_, indexFault1_of_withReg _ exec_call⟩
  · obtain ⟨hsp, htop, hmem, hregs, -, hfl, hgate, hports⟩ :=
      pushStoresBelowSp (BitVec.ofNat 8 (s.pc + 2)) s hwf
    have hret : ((push (BitVec.ofNat 8 (s.pc + 2)) s).mem.read (pushAddr s).toNat).toNat = s.pc + 2 := by
      rw [pushAddr, htop, toNat_ofNat_of_le hpc]
    exact ⟨_, exec_call_of_le hpc, rfl, hsp, hret, rfl, hmem, hregs, hfl, hgate, hports⟩
  · rw [exec_call, withReg_regByte, if_pos hpc, raise_addressError]

/-- Settles O45: RET reads the byte CALL pushed, where CALL left SP. -/
theorem retReturnsBehindTheCall : Obligations.RetReturnsBehindTheCall := by
  intro x s t u hwf hpc hcall husp hubyte
  obtain rfl : setPc (s.reg x).toNat (push (BitVec.ofNat 8 (s.pc + 2)) s) = t := by
    simpa [exec_call_of_le hpc] using hcall
  have htsp : (push (BitVec.ofNat 8 (s.pc + 2)) s).sp = s.sp - 1 := push_sp
  obtain ⟨hret, -⟩ := retPopsPc
  obtain ⟨v, hexec, hvpc, -, hvsp, -⟩ := hret u
  refine ⟨v, hexec, ?_, ?_⟩
  · rw [hvpc, husp, hubyte]
    exact (congrArg BitVec.toNat (popValue_push hwf)).trans (toNat_ofNat_of_le hpc)
  · rw [hvsp, husp]
    exact (congrArg (· + 1) htsp).trans (BitVec.sub_add_cancel s.sp 1)

/-! ### The conditional jumps -/

/-- A conditional jump writes PC alone, by its test of FL. -/
theorem jumpResult_of_jumpIf {i : Byte → Instr} {taken : Byte → Bool} {c : Byte → Prop}
    (hi : ∀ a s, exec (i a) s = jumpIf taken a s) (hc : ∀ fl, taken fl = true ↔ c fl) : JumpResult i c := by
  intro x s
  refine ⟨_, by rw [hi, jumpIf, withReg_regByte], fun h => ?_, fun h => ?_, onlyRegs_setPc _ (onlyRegs_refl [] s)⟩
  · rw [setPc_pc, if_pos ((hc _).2 h)]
  · rw [setPc_pc, if_neg (mt (hc _).1 h)]

theorem exec_jeq (a : Byte) (s : State) : exec (.jeq a) s = jumpIf condEq a s := rfl
theorem exec_jne (a : Byte) (s : State) : exec (.jne a) s = jumpIf condNe a s := rfl
theorem exec_jgt (a : Byte) (s : State) : exec (.jgt a) s = jumpIf condGt a s := rfl
theorem exec_jlt (a : Byte) (s : State) : exec (.jlt a) s = jumpIf condLt a s := rfl
theorem exec_jge (a : Byte) (s : State) : exec (.jge a) s = jumpIf condGe a s := rfl
theorem exec_jle (a : Byte) (s : State) : exec (.jle a) s = jumpIf condLe a s := rfl

theorem condEq_iff (fl : Byte) : condEq fl = true ↔ fl = 1 := beq_iff_eq
theorem condNe_iff (fl : Byte) : condNe fl = true ↔ fl ≠ 1 := bne_iff_ne
theorem condGt_iff (fl : Byte) : condGt fl = true ↔ fl = 2 := beq_iff_eq
theorem condLt_iff (fl : Byte) : condLt fl = true ↔ fl = 4 := beq_iff_eq
theorem condGe_iff (fl : Byte) : condGe fl = true ↔ fl ≠ 4 := bne_iff_ne
theorem condLe_iff (fl : Byte) : condLe fl = true ↔ fl ≠ 2 := bne_iff_ne

/-- Settles O47: the six tests of FL in the one shape of a conditional jump. -/
theorem conditionalJumpsTestFlByValue : Obligations.ConditionalJumpsTestFlByValue :=
  ⟨jumpResult_of_jumpIf exec_jeq condEq_iff, jumpResult_of_jumpIf exec_jne condNe_iff,
    jumpResult_of_jumpIf exec_jgt condGt_iff, jumpResult_of_jumpIf exec_jlt condLt_iff,
    jumpResult_of_jumpIf exec_jge condGe_iff, jumpResult_of_jumpIf exec_jle condLe_iff,
    indexFault1_of_withReg _ exec_jeq, indexFault1_of_withReg _ exec_jne, indexFault1_of_withReg _ exec_jgt,
    indexFault1_of_withReg _ exec_jlt, indexFault1_of_withReg _ exec_jge, indexFault1_of_withReg _ exec_jle,
    fun _ _ => rfl, fun _ _ => rfl, fun _ _ => rfl, fun _ _ => rfl, fun _ _ => rfl, fun _ _ => rfl⟩

/-! ### HLT -/

theorem exec_hlt (s : State) : exec .hlt s = .next (advance 1 (halt .hlt s)) := rfl

/-- Settles O48: HLT writes STATUS and PC alone. -/
theorem hltHalts : Obligations.HltHalts := fun s =>
  ⟨_, exec_hlt s, rfl, rfl, rfl, fun _ _ => rfl, rfl, fun _ => rfl, rfl, rfl, rfl⟩

end Sys2Proof.Machine
end

section
/-! The statement about pushes and pops in sequence (43_stack.md R164): where a list pushed stands, and what as many
pops return. -/

namespace Sys2Proof.Machine

variable {s : State} {v : Byte} {vs : List Byte} {n j k a : Nat} {p : Byte}

/-! ### The cells below and above SP -/

/-- Within 256 pushes no two cells below SP coincide. -/
theorem cell_below_ne (hjk : j < k) (hk : k < 256) :
    (p - BitVec.ofNat 8 (j + 1)).toNat ≠ (p - BitVec.ofNat 8 (k + 1)).toNat := by
  simp only [BitVec.toNat_sub, BitVec.toNat_ofNat]
  omega

/-- One cell further down. -/
theorem cell_below_succ : p - BitVec.ofNat 8 n - 1 = p - BitVec.ofNat 8 (n + 1) := by
  rw [BitVec.ofNat_add, sub_sub]
  rfl

/-- One cell further up. -/
theorem cell_above_succ : p + 1 + BitVec.ofNat 8 n = p + BitVec.ofNat 8 (n + 1) := by
  rw [BitVec.ofNat_add, add_assoc, add_comm 1]
  rfl

/-- `j` cells up from `n` cells below. -/
theorem cell_above_below (h : j ≤ n) : p - BitVec.ofNat 8 n + BitVec.ofNat 8 j = p - BitVec.ofNat 8 (n - j) := by
  obtain ⟨k, rfl⟩ := Nat.exists_eq_add_of_le' h
  rw [Nat.add_sub_cancel, BitVec.ofNat_add, ← sub_sub, sub_add_cancel]

/-! ### Pushing a list -/

@[simp] theorem pushAll_nil : pushAll [] s = s := rfl
theorem pushAll_cons : pushAll (v :: vs) s = pushAll vs (push v s) := rfl

theorem pushAll_concat : pushAll (vs ++ [v]) s = push v (pushAll vs s) := by
  rw [pushAll, List.foldl_append]
  rfl

theorem pushAll_sp : (pushAll vs s).sp = s.sp - BitVec.ofNat 8 vs.length := by
  induction vs using List.reverseRecOn with
  | nil => simp
  | append_singleton vs v ih =>
    rw [pushAll_concat, push_sp, ih, cell_below_succ, List.length_append, List.length_singleton]

theorem pushAll_wf (h : s.mem.wf = true) : (pushAll vs s).mem.wf = true := by
  induction vs using List.reverseRecOn with
  | nil => exact h
  | append_singleton vs v ih =>
    rw [pushAll_concat]
    exact push_wf ih

/-- A list pushed stands below SP, the first byte on top, as long as it does not overwrite itself. -/
theorem pushAll_read (hwf : s.mem.wf = true) (hlen : vs.length ≤ 256) (hj : j < vs.length) :
    (pushAll vs s).mem.read (s.sp - BitVec.ofNat 8 (j + 1)).toNat = vs[j] := by
  induction vs using List.reverseRecOn with
  | nil => exact absurd hj (Nat.not_lt_zero j)
  | append_singleton vs v ih =>
    rw [List.length_append, List.length_singleton] at hlen hj
    rw [pushAll_concat, push_mem, pushAll_sp, cell_below_succ]
    by_cases hlast : j = vs.length
    · subst hlast
      rw [Memory.read_write_same (pushAll_wf hwf), List.getElem_concat_length rfl]
    · have hj' : j < vs.length := by omega
      rw [Memory.read_write_ne (pushAll_wf hwf) (cell_below_ne hj' (by omega)), ih (by omega) hj',
        List.getElem_append_left hj']

/-- Pushing a list changes its cells alone. -/
theorem pushAll_read_ne (hwf : s.mem.wf = true)
    (ha : ∀ j, j < vs.length → a ≠ (s.sp - BitVec.ofNat 8 (j + 1)).toNat) :
    (pushAll vs s).mem.read a = s.mem.read a := by
  induction vs using List.reverseRecOn with
  | nil => rfl
  | append_singleton vs v ih =>
    rw [List.length_append, List.length_singleton] at ha
    rw [pushAll_concat, push_mem, pushAll_sp, cell_below_succ,
      Memory.read_write_ne (pushAll_wf hwf) (ha _ (Nat.lt_succ_self _)), ih fun j hj => ha j (by omega)]

/-! ### Popping -/

theorem popAll_succ :
    popAll (n + 1) s = (popValue s :: (popAll n (popState s)).1, (popAll n (popState s)).2) := rfl

/-- Pops read upward from SP and write SP alone. -/
theorem popAll_eq :
    (popAll n s).1 = (List.range n).map (fun j => s.mem.read (s.sp + BitVec.ofNat 8 j).toNat) ∧
    (popAll n s).2.sp = s.sp + BitVec.ofNat 8 n ∧ (popAll n s).2.mem = s.mem := by
  induction n generalizing s with
  | zero => simp [popAll]
  | succ n ih =>
    obtain ⟨hvs, hsp, hmem⟩ := ih (s := popState s)
    rw [popAll_succ, hvs, hsp, hmem, popState_mem, popState_sp]
    refine ⟨?_, cell_above_succ, rfl⟩
    simp only [cell_above_succ]
    rw [List.range_succ_eq_map, List.map_cons, List.map_map, popValue_eq, BitVec.add_zero]
    rfl

/-- Settles O42: the pops read the cells of the pushes from the last one up. -/
theorem popsUndoPushes : Obligations.PopsUndoPushes := by
  intro vs s hwf hlen
  obtain ⟨hvs, hsp, hmem⟩ := popAll_eq (n := vs.length) (s := pushAll vs s)
  refine ⟨?_, ?_, hmem, fun j hj => pushAll_read hwf hlen hj⟩
  · rw [hvs]
    refine List.ext_getElem (by simp) fun j hj hj' => ?_
    rw [List.length_reverse] at hj'
    rw [List.getElem_map, List.getElem_range, pushAll_sp, cell_above_below hj'.le, List.getElem_reverse,
      show vs.length - j = vs.length - 1 - j + 1 by omega, pushAll_read hwf hlen]
  · rw [hsp, pushAll_sp, sub_add_cancel]

end Sys2Proof.Machine
end

section
/-! The statements about the frame of an interrupt (60_exceptions.md R211, R212, 45_iret.md R190): an entry pushes a
list of nine bytes, and IRET pops nine bytes. -/

namespace Sys2Proof.Machine

variable {s t : State} {i r : Fin 8} {v : Byte} {rs : List (Fin 8)} {j : Nat}

/-! ### The frame that IRET pops -/

/-- Popping into distinct registers reads upward from SP. -/
theorem popRegs_reg (hsp : regSP ∉ rs) (hnodup : rs.Nodup) (hr : rs[j]? = some r) :
    (popRegs rs s).reg r = s.mem.read (s.sp + BitVec.ofNat 8 j).toNat := by
  induction rs generalizing s j with
  | nil => cases hr
  | cons q rs ih =>
    obtain ⟨hq, hsp⟩ := List.ne_and_not_mem_of_not_mem_cons hsp
    obtain ⟨hqrs, hnodup⟩ := List.nodup_cons.1 hnodup
    rw [popRegs_cons]
    cases j with
    | zero =>
      obtain rfl : q = r := by simpa using hr
      obtain ⟨-, -, -, -, -, -, -, -, hregs⟩ := popRegs_fields (rs := rs) (s := popReg q s)
      rw [hregs q hq.symm hqrs, popReg_same, popValue_eq, BitVec.add_zero]
    | succ j => rw [ih hsp hnodup hr, popReg_mem, popReg_sp hq.symm, cell_above_succ]

/-- R6 is popped first and R0 last. -/
theorem restoredRegs_getElem? (j : Fin 7) : restoredRegs[6 - j.val]? = some j.castSucc := by
  revert j
  decide

/-- FL and PC are two more pops behind the registers (45_iret.md R190). -/
theorem returnFromInterrupt_reads (s : State) :
    (returnFromInterrupt s).fl = popValue (popRegs restoredRegs s) ∧
    (returnFromInterrupt s).pc = (popValue (popState (popRegs restoredRegs s))).toNat ∧
    (returnFromInterrupt s).sp = (popState (popState (popRegs restoredRegs s))).sp ∧
    ∀ r, (returnFromInterrupt s).reg r = (popState (popState (popRegs restoredRegs s))).reg r := by
  unfold returnFromInterrupt
  generalize popRegs restoredRegs s = s1
  exact ⟨rfl, rfl, rfl, fun _ => rfl⟩
/-- Where IRET leaves the registers, FL, PC and SP (45_iret.md R190). -/
theorem returnFromInterrupt_frame (s : State) :
    (∀ j : Fin 7, (returnFromInterrupt s).reg j.castSucc =
      s.mem.read (s.sp + BitVec.ofNat 8 (6 - j.val)).toNat) ∧
    (returnFromInterrupt s).fl = s.mem.read (s.sp + 7).toNat ∧
    (returnFromInterrupt s).pc = (s.mem.read (s.sp + 8).toNat).toNat ∧
    (returnFromInterrupt s).sp = s.sp + 9 := by
  obtain ⟨hfl, hpc, hsp, hregs⟩ := returnFromInterrupt_reads s
  obtain ⟨-, -, -, -, -, -, -, hmem, -⟩ := popRegs_fields (rs := restoredRegs) (s := s)
  have hsp7 : (popRegs restoredRegs s).sp = s.sp + BitVec.ofNat 8 7 := popRegs_sp (by decide)
  have hsp8 : (popState (popRegs restoredRegs s)).sp = s.sp + BitVec.ofNat 8 8 := by
    rw [popState_sp, hsp7, add_assoc]
    rfl
  refine ⟨fun j => ?_, ?_, ?_, ?_⟩
  · have hj : j.castSucc ≠ regSP := Fin.ne_of_lt j.castSucc_lt_last
    rw [hregs, popState_reg hj, popState_reg hj]
    exact popRegs_reg (by decide) (by decide) (restoredRegs_getElem? j)
  · rw [hfl, popValue_eq, hmem, hsp7]
    rfl
  · rw [hpc, popValue_eq, popState_mem, hmem, hsp8]
    rfl
  · rw [hsp, popState_sp, hsp8, add_assoc]
    rfl

theorem exec_iret (s : State) : exec .iret s = .next (returnFromInterrupt s) := rfl

/-- Settles O49: nine pops read upward from SP, and IE is set. -/
theorem iretPopsTheFrame : Obligations.IretPopsTheFrame := by
  intro s
  obtain ⟨hregs, hfl, hpc, hsp⟩ := returnFromInterrupt_frame s
  obtain ⟨hie, hstatus, hout, hcfg, hticks, hmem, -⟩ := returnFromInterrupt_fields (s := s)
  exact ⟨_, exec_iret s, hregs, hfl, hpc, hsp, hie, fun a => by rw [hmem], hcfg, hticks, hstatus, hout⟩

/-! ### The frame that an entry pushes -/

/-- The nine bytes of the frame, in push order (60_exceptions.md R212). -/
def frameBytes (s : State) : List Byte := BitVec.ofNat 8 s.pc :: s.fl :: savedRegs.map s.reg

/-- No register but SP changes while registers are pushed, so their values can be listed beforehand. -/
theorem pushRegs_eq_pushAll (hsp : regSP ∉ rs) : pushRegs rs s = pushAll (rs.map s.reg) s := by
  induction rs generalizing s with
  | nil => rfl
  | cons q rs ih =>
    obtain ⟨-, hsp⟩ := List.ne_and_not_mem_of_not_mem_cons hsp
    rw [pushRegs_cons, ih hsp, List.map_cons, pushAll_cons]
    congr 1
    exact List.map_congr_left fun r hr => push_reg fun h => hsp (h ▸ hr)

theorem pushFrame_eq_pushAll (s : State) : pushFrame s = pushAll (frameBytes s) s := by
  rw [pushFrame, pushRegs_eq_pushAll (by decide), frameBytes, pushAll_cons, pushAll_cons]
  congr 1
  refine List.map_congr_left fun r hr => ?_
  have hr' : r ≠ regSP := fun h => absurd (h ▸ hr) (by decide)
  rw [push_reg hr', push_reg hr']

theorem frameBytes_length (s : State) : (frameBytes s).length = 9 := rfl

/-- R0 to R6 stand behind PC and FL in the frame. -/
theorem frameBytes_reg (s : State) (j : Fin 7) : (frameBytes s)[j.val + 2]? = some (s.reg j.castSucc) := by
  have hsaved : savedRegs[j.val]? = some j.castSucc := by
    revert j
    decide
  rw [frameBytes, List.getElem?_cons_succ, List.getElem?_cons_succ, List.getElem?_map, hsaved, Option.map_some]

/-- The vector's cell is an address of memory (20_memory.md R56). -/
theorem vectorAddr_toNat (c : Config) (i : Fin 8) : (vectorAddr c i).toNat = c.vectorBase.val + i.val := by
  have := c.vectorBase.isLt
  exact toNat_ofNat_of_le (by omega)

/-- PC is read from the vector table after the pushes (60_exceptions.md R211). -/
theorem entryState_pc :
    (entryState i s).pc = ((entryState i s).mem.read (s.cfg.vectorBase.val + i.val)).toNat := by
  obtain ⟨-, -, -, -, hcfg, -, -, -, -⟩ := pushFrame_fields (s := entryGate i s)
  obtain ⟨-, -, -, -, -, hcfg', -, -, -, -⟩ := entryGate_fields (i := i) (s := s)
  rw [entryState, vectorTo, setPc_pc, setPc_mem, loadByte, vectorAddr_toNat, hcfg, hcfg']

theorem entryGate_sp : (entryGate i s).sp = s.sp := by
  obtain ⟨-, -, -, -, -, -, -, -, -, hregs⟩ := entryGate_fields (i := i) (s := s)
  exact hregs regSP (by decide)

theorem entryState_mem : (entryState i s).mem = (pushAll (frameBytes (entryGate i s)) (entryGate i s)).mem := by
  rw [← pushFrame_eq_pushAll]
  rfl

/-- The frame stands in the nine cells below the old SP (60_exceptions.md R212). -/
theorem entryState_frame (hwf : s.mem.wf = true) (hv : (frameBytes (entryGate i s))[j]? = some v) :
    (entryState i s).mem.read (s.sp - BitVec.ofNat 8 (j + 1)).toNat = v := by
  obtain ⟨hj, rfl⟩ := List.getElem?_eq_some_iff.1 hv
  have hlen : (frameBytes (entryGate i s)).length ≤ 256 := by
    rw [frameBytes_length]
    decide
  have hwf' : (entryGate i s).mem.wf = true := hwf
  have hread := pushAll_read hwf' hlen hj
  rwa [entryGate_sp, ← entryState_mem] at hread

/-- Every other cell is as before. -/
theorem entryState_read_ne {a : Nat} (hwf : s.mem.wf = true)
    (ha : ∀ j : Fin 9, a ≠ (s.sp - BitVec.ofNat 8 (j.val + 1)).toNat) :
    (entryState i s).mem.read a = s.mem.read a := by
  rw [← entryGate_sp (i := i)] at ha
  rw [entryState_mem]
  exact pushAll_read_ne (s := entryGate i s) hwf fun j hj => ha ⟨j, hj⟩

/-- What the gate makes of the registers in the frame: IS without the serviced bit, the others as they were. -/
theorem entryGate_reg (s : State) (i r : Fin 8) :
    (entryGate i s).reg r = if r = regIS then clearLine i (s.reg regIS) else s.reg r := by
  obtain ⟨-, -, -, -, -, -, -, -, his, hregs⟩ := entryGate_fields (i := i) (s := s)
  split
  · subst_vars
    exact his
  · exact hregs r ‹_›

/-- Settles O52: the entry is the push of the frame's nine bytes behind the gate, then the read of the vector. -/
theorem interruptEntrySavesTheFrame : Obligations.InterruptEntrySavesTheFrame := by
  intro s i hwf hpc
  obtain ⟨hie, hfl, hstatus, hout, hcfg, hticks, his, hsp, hregs, -, -⟩ := entryState_fields (i := i) (s := s)
  have hframe : RegsSameExcept [regIS, regSP] s (entryState i s) := fun r hr => by
    obtain ⟨hr', hr⟩ := List.ne_and_not_mem_of_not_mem_cons hr
    exact hregs r (List.ne_of_not_mem_cons hr) hr'
  have hsavedPc : (entryState i s).mem.read (s.sp - 1).toNat = BitVec.ofNat 8 s.pc :=
    entryState_frame (j := 0) hwf rfl
  have hsavedFl : (entryState i s).mem.read (s.sp - 2).toNat = s.fl := entryState_frame (j := 1) hwf rfl
  have hsavedRegs : ∀ j : Fin 6, (entryState i s).mem.read (s.sp - BitVec.ofNat 8 (j.val + 3)).toNat =
      s.reg (j.castAdd 2) := fun j => by
    have hne : j.castSucc.castSucc ≠ regIS := Fin.ne_of_lt (Fin.castSucc_lt_castSucc_iff.2 j.castSucc_lt_last)
    have hbyte := entryState_frame (i := i) hwf (frameBytes_reg (entryGate i s) j.castSucc)
    rw [entryGate_reg, if_neg hne] at hbyte
    exact hbyte
  have hsavedIs : (entryState i s).mem.read (s.sp - 9).toNat = clearLine i (s.reg regIS) := by
    have hbyte := entryState_frame (i := i) hwf (frameBytes_reg (entryGate i s) 6)
    rw [entryGate_reg] at hbyte
    exact hbyte
  refine ⟨entryState i s, enterInterrupt_of_pc_le hpc, hsp, ?_, hsavedFl, hsavedRegs, hsavedIs, his, hframe, hie,
    hfl, entryState_pc, fun a ha => entryState_read_ne hwf ha, ⟨hstatus, hout⟩, hcfg, hticks⟩
  rw [hsavedPc, toNat_ofNat_of_le hpc]

/-! ### IRET behind an entry -/

/-- Byte `j` of the frame, counted upward from the SP that the entry leaves. -/
theorem entryState_frame_above (hwf : s.mem.wf = true) (hj : j ≤ 8)
    (hv : (frameBytes (entryGate i s))[8 - j]? = some v) :
    (entryState i s).mem.read ((entryState i s).sp + BitVec.ofNat 8 j).toNat = v := by
  obtain ⟨-, -, -, -, -, -, -, hsp, -⟩ := entryState_fields (i := i) (s := s)
  have hcell : s.sp - 9 + BitVec.ofNat 8 j = s.sp - BitVec.ofNat 8 (8 - j + 1) := by
    rw [show 8 - j + 1 = 9 - j by omega]
    exact cell_above_below (n := 9) (by omega)
  rw [hsp, hcell, entryState_frame hwf hv]

/-- Settles O56: IRET reads upward from SP what the entry pushed downward. -/
theorem iretUndoesTheEntry : Obligations.IretUndoesTheEntry := by
  intro s t u i hwf hentry husp huframe
  rcases enterInterrupt_cases (s := s) (i := i) with ⟨-, herr⟩ | ⟨hpc, hok⟩
  · cases herr.symm.trans hentry
  cases hok.symm.trans hentry
  obtain ⟨-, -, -, -, -, -, -, hsp, -⟩ := entryState_fields (i := i) (s := s)
  obtain ⟨hregs, hfl, hpc', hsp'⟩ := returnFromInterrupt_frame u
  obtain ⟨hie, -⟩ := returnFromInterrupt_fields (s := u)
  have hbyte : ∀ (j : Fin 9) (v : Byte), (frameBytes (entryGate i s))[8 - j.val]? = some v →
      u.mem.read (u.sp + BitVec.ofNat 8 j.val).toNat = v := fun j v hv => by
    rw [husp, huframe j, entryState_frame_above hwf (Nat.le_of_lt_succ j.isLt) hv]
  have hreg : ∀ j : Fin 7, (returnFromInterrupt u).reg j.castSucc = (entryGate i s).reg j.castSucc := fun j => by
    rw [hregs j]
    refine hbyte ⟨6 - j.val, by omega⟩ _ ?_
    rw [← frameBytes_reg, show 8 - (6 - j.val) = j.val + 2 by omega]
  refine ⟨_, exec_iret u, fun r hr => ?_, ?_, ?_, ?_, hie⟩
  · by_cases hlast : r = regSP
    · subst hlast
      have hback : (returnFromInterrupt u).sp = s.sp := by rw [hsp', husp, hsp, sub_add_cancel]
      exact hback
    · have hlt : r.val < 7 := by
        have : r.val ≠ 7 := fun h => hlast (Fin.ext h)
        omega
      have hbefore := hreg ⟨r.val, hlt⟩
      rw [entryGate_reg, if_neg (by exact hr)] at hbefore
      exact hbefore
  · have his := hreg 6
    rw [entryGate_reg] at his
    exact his
  · rw [hfl]
    exact hbyte 7 _ rfl
  · rw [hpc']
    exact (congrArg BitVec.toNat (hbyte 8 _ rfl)).trans (toNat_ofNat_of_le hpc)

end Sys2Proof.Machine
end

section
/-! The statements about memory, the status port and reset (20_memory.md R51, 10_state.md R33,
60_exceptions.md R200, 70_reset_and_hazards.md R240, R241). -/

namespace Sys2Proof.Machine

variable {m m' : Memory} {lo a : Nat} {v : Byte} {s : State}

/-! ### The memory primitives -/

theorem memRead_of_le (h : a ≤ 255) : memRead a s = .ok (s.mem.read a) := if_pos h
theorem memRead_of_gt (h : 255 < a) : memRead a s = .error (.addressError a) := if_neg (Nat.not_le.2 h)
theorem memWrite_of_le (h : a ≤ 255) : memWrite a v s = .ok { s with mem := s.mem.write a v } := if_pos h
theorem memWrite_of_gt (h : 255 < a) : memWrite a v s = .error (.addressError a) := if_neg (Nat.not_le.2 h)

/-- Settles O57: within memory the write is one cell of a canonical memory, past it both raise. -/
theorem memoryPrimitivesCheckTheAddress : Obligations.MemoryPrimitivesCheckTheAddress := by
  refine fun s a v hwf => ⟨fun ha => ⟨memRead_of_le ha, _, memWrite_of_le ha, ?_⟩, fun ha => ?_⟩
  · exact ⟨Memory.read_write_same hwf, fun b hb => Memory.read_write_ne hwf hb, fun _ _ => rfl, rfl, rfl,
      ⟨rfl, rfl, rfl⟩, rfl, rfl⟩
  · exact ⟨memRead_of_gt ha, memWrite_of_gt ha⟩

/-! ### One canonical form -/

theorem Memory.read_first : Memory.read ((a, v) :: m) a = v := if_pos rfl

theorem Memory.wfFrom_first (h : Memory.wfFrom lo ((a, v) :: m) = true) :
    Memory.wfFrom a ((a, v) :: m) = true :=
  Memory.wfFrom_listed.2 ⟨le_rfl, (Memory.wfFrom_listed.1 h).2⟩

/-- What does not read as unlisted is not below the first cell. -/
theorem Memory.le_of_read_ne (h : Memory.wfFrom lo m = true) (ha : m.read a ≠ Memory.unlisted) : lo ≤ a := by
  by_contra hlt
  exact ha (Memory.read_below h (Nat.not_le.1 hlt))

/-- Canonical memories that read alike begin with the same cell, and their rests read alike. -/
theorem Memory.eq_of_read_eq (h : Memory.wfFrom lo m = true) (h' : Memory.wfFrom lo m' = true)
    (hread : ∀ a, a ≤ 255 → m.read a = m'.read a) : m = m' := by
  induction m generalizing lo m' with
  | nil =>
    cases m' with
    | nil => rfl
    | cons c m' =>
      obtain ⟨b, w⟩ := c
      obtain ⟨-, hb, hw, -⟩ := Memory.wfFrom_listed.1 h'
      exact absurd (Memory.read_first.symm.trans (hread b hb).symm) hw
  | cons c m ih =>
    obtain ⟨b, w⟩ := c
    obtain ⟨-, hb, hw, hm⟩ := Memory.wfFrom_listed.1 h
    have hfirst := hread b hb
    rw [Memory.read_first] at hfirst
    cases m' with
    | nil => exact absurd hfirst hw
    | cons c' m' =>
      obtain ⟨b', w'⟩ := c'
      obtain ⟨-, hb', hw', hm'⟩ := Memory.wfFrom_listed.1 h'
      have hfirst' := hread b' hb'
      rw [Memory.read_first] at hfirst'
      have hle : b' ≤ b := Memory.le_of_read_ne (Memory.wfFrom_first h') (hfirst ▸ hw)
      have hge : b ≤ b' := Memory.le_of_read_ne (Memory.wfFrom_first h) (hfirst'.symm ▸ hw')
      obtain rfl := Nat.le_antisymm hle hge
      rw [Memory.read_first] at hfirst
      have hrest : ∀ a, a ≤ 255 → Memory.read m a = Memory.read m' a := fun a ha => by
        by_cases hab : a = b'
        · subst hab
          rw [Memory.read_below hm (Nat.lt_succ_self a), Memory.read_below hm' (Nat.lt_succ_self a)]
        · have htail := hread a ha
          rwa [Memory.read_listed, Memory.read_listed, if_neg hab, if_neg hab] at htail
      rw [hfirst, ih hm hm' hrest]

/-- Settles O58: the canonical form of what is read is unique. -/
theorem equalMemoriesAreEqualData : Obligations.EqualMemoriesAreEqualData :=
  fun _ _ h h' hread => Memory.eq_of_read_eq h h' hread

/-! ### The status port -/

/-- Only Running has the code 0 (60_exceptions.md R200). -/
theorem code_eq_zero_iff (st : Status) : st.code = 0 ↔ st = .running := by
  rcases st with _ | (_ | _) | (_ | _ | _) <;> simp [Status.code]

/-- Settles O59: the code table, and that no other row of it is 0. -/
theorem statusCodes : Obligations.StatusCodes :=
  ⟨rfl, rfl, rfl, fun _ _ => rfl, fun _ => rfl, fun _ => rfl, code_eq_zero_iff⟩

/-! ### Reset -/

variable (r : ResetConfig) (c : Config) (k : TickSource)

theorem resetWith_sp : (State.resetWith r c k).sp = 0xF4 :=
  Vector.getElem_push_last

theorem resetWith_reg (j : Fin 7) : (State.resetWith r c k).reg j.castSucc = r.gprReset[j] :=
  Vector.getElem_push_lt j.isLt

theorem resetWith_inv (hm : c.opcodeMap.admissible = true) : (State.resetWith r c k).Inv :=
  ⟨Memory.ofBytes_wf, Nat.zero_le _, hm, statusInfo_of_running rfl⟩

/-- Settles O1: SP is pushed behind R0 to R6, and memory is the image in canonical form. -/
theorem resetLeavesParameterValues : Obligations.ResetLeavesParameterValues := by
  refine fun r c k => ⟨_, rfl, resetWith_sp r c k, resetWith_reg r c k, rfl, rfl, rfl, rfl, rfl, rfl, rfl,
    fun a ha => ?_⟩
  have hread := Memory.read_ofBytes (a := 0) (b := a) (vs := r.image) (by omega)
  rwa [Nat.zero_add] at hread

/-- Settles O2: the reset state of the default parameters, whose image is empty. -/
theorem resetDefaultsAreZero : Obligations.ResetDefaultsAreZero :=
  ⟨rfl, by decide, rfl, rfl, rfl, rfl, rfl, rfl, fun _ => rfl⟩

/-- Settles O3: the default map is admissible, and reset meets the invariant for every admissible one. -/
theorem resetMeetsInvariant : Obligations.ResetMeetsInvariant := by
  obtain ⟨hdefault, -⟩ := defaultOpcodeMapIsAdmissible
  exact ⟨resetWith_inv _ _ _ hdefault, resetWith_inv⟩

end Sys2Proof.Machine
end

section
/-! The statements about tick schedules (60_exceptions.md R215): a step draws one tick and reads no other, so a tick
source and a schedule drive the same runs. -/

namespace Sys2Proof.Machine

variable {s t u : State} {a b : Byte} {n j : Nat} {k : TickSource} {σ : Nat → Bool} {i : Instr}

/-! ### Exchanging the tick input -/

/-- The state with another tick input. -/
def State.retick (k : TickSource) (s : State) : State := { s with ticks := k }

/-- A result with another tick input in its next state. -/
def retickResult (k : TickSource) : Result → Result
  | .next s => .next (s.retick k)
  | .fault f => .fault f
  | .refused r => .refused r

@[simp] theorem retick_reg (k : TickSource) (s : State) (j : Fin 8) : (s.retick k).reg j = s.reg j := rfl
@[simp] theorem retick_pc (k : TickSource) (s : State) : (s.retick k).pc = s.pc := rfl
@[simp] theorem retick_fl (k : TickSource) (s : State) : (s.retick k).fl = s.fl := rfl
@[simp] theorem retick_ie (k : TickSource) (s : State) : (s.retick k).ie = s.ie := rfl

theorem retick_self (s : State) : s.retick s.ticks = s := rfl

theorem retick_eq_self (h : t.ticks = k) : t.retick k = t := h ▸ retick_self t

theorem withReg_retick {f g : Fin 8 → Result} (h : ∀ x, g x = retickResult k (f x)) :
    withReg a (s.retick k) g = retickResult k (withReg a s f) := by
  rcases withReg_cases (a := a) (s := s) (k := f) with ⟨ha, e⟩ | ⟨ha, e⟩
  · rw [e, withReg_ok ha, h]
  · rw [e, withReg_bad ha]
    rfl

theorem withRegs_retick {f g : Fin 8 → Fin 8 → Result} (h : ∀ x y, g x y = retickResult k (f x y)) :
    withRegs a b (s.retick k) g = retickResult k (withRegs a b s f) :=
  withReg_retick fun x => withReg_retick fun y => h x y

theorem divideAlu_retick (g : Byte → Byte → Byte) :
    divideAlu g a b (s.retick k) = retickResult k (divideAlu g a b s) :=
  withRegs_retick fun x y => by
    rw [retick_reg]
    split <;> rfl

theorem pushRegs_retick (rs : List (Fin 8)) (k : TickSource) (s : State) :
    pushRegs rs (s.retick k) = (pushRegs rs s).retick k := by
  induction rs generalizing s with
  | nil => rfl
  | cons r rs ih => exact ih (push (s.reg r) s)

theorem popRegs_retick (rs : List (Fin 8)) (k : TickSource) (s : State) :
    popRegs rs (s.retick k) = (popRegs rs s).retick k := by
  induction rs generalizing s with
  | nil => rfl
  | cons r rs ih => exact ih (popReg r s)

theorem push_retick (v : Byte) (k : TickSource) (s : State) : push v (s.retick k) = (push v s).retick k := rfl

theorem entryGate_retick (j : Fin 8) (k : TickSource) (s : State) :
    entryGate j (s.retick k) = (entryGate j s).retick k := rfl

theorem vectorTo_retick (j : Fin 8) (k : TickSource) (s : State) :
    vectorTo j (s.retick k) = (vectorTo j s).retick k := rfl

theorem pushFrame_retick (k : TickSource) (s : State) : pushFrame (s.retick k) = (pushFrame s).retick k := by
  rw [pushFrame, retick_pc, retick_fl, push_retick, push_retick, pushRegs_retick, pushFrame]

theorem entryState_retick (j : Fin 8) (k : TickSource) (s : State) :
    entryState j (s.retick k) = (entryState j s).retick k := by
  rw [entryState, entryGate_retick, pushFrame_retick, vectorTo_retick, entryState]

theorem returnFromInterrupt_retick (k : TickSource) (s : State) :
    returnFromInterrupt (s.retick k) = (returnFromInterrupt s).retick k := by
  rw [returnFromInterrupt, returnFromInterrupt, popRegs_retick]
  generalize popRegs restoredRegs s = u
  rfl

/-- No instruction reads the tick input. -/
theorem exec_retick (i : Instr) (k : TickSource) (s : State) :
    exec i (s.retick k) = retickResult k (exec i s) := by
  cases i with
  | hlt | ret => rfl
  | iret => exact congrArg Host.Outcome.next (returnFromInterrupt_retick k s)
  | call a =>
    refine withReg_retick fun x => ?_
    rw [retick_pc]
    split <;> rfl
  | div a b => exact divideAlu_retick _
  | mod a b => exact divideAlu_retick _
  | push a | pop a | prn a | jmp a | jeq a | jne a | jgt a | jlt a | jle a | jge a | inc a | dec a | not a
  | ldi a v => exact withReg_retick fun _ => rfl
  | add a b | sub a b | mul a b | cmp a b | and a b | or a b | xor a b | shl a b | shr a b =>
    exact withRegs_retick fun _ _ => rfl

theorem fetch_retick (k : TickSource) (s : State) : fetch (s.retick k) = fetch s := rfl

theorem interruptStep_retick (k : TickSource) (s : State) :
    interruptStep (s.retick k) = (interruptStep s).map (State.retick k) := by
  rw [interruptStep, interruptStep, retick_ie]
  split
  · rw [interruptCheck, interruptCheck, retick_reg, retick_reg]
    split
    · rfl
    · rw [enterInterrupt, enterInterrupt, retick_pc, entryState_retick]
      split <;> rfl
  · rfl

/-- Step 1 reads the next tick alone. -/
theorem afterTimer_retick (h : k.now = s.ticks.now) :
    afterTimer (s.retick k) = (afterTimer s).retick k.rest := by
  rw [afterTimer, afterTimer, show (s.retick k).ticks.now = s.ticks.now from h, timerTick, timerTick]
  split <;> rfl

theorem cycle_retick (h : k.now = s.ticks.now) : cycle (s.retick k) = retickResult k.rest (cycle s) := by
  rw [cycle, cycle, beforeFetch, beforeFetch, afterTimer_retick h, interruptStep_retick]
  cases interruptStep (afterTimer s) with
  | error f => rfl
  | ok t =>
    simp only [Except.map, fetch_retick]
    cases fetch t with
    | error f => rfl
    | ok i => exact exec_retick i _ t

/-- A step that answers a next state answers the same one, but for the schedule, under any other that begins the
same. -/
theorem step_retick (h : k.now = s.ticks.now) (hstep : step s = .next t) :
    step (s.retick k) = .next (t.retick k.rest) := by
  obtain ⟨hrun, -⟩ := step_cases hstep
  rw [step_running hrun] at hstep
  rw [step_running (by exact hrun), cycle_retick h, hstep]
  rfl

/-- Settles O19: no stage of the cycle behind the draw reads the tick input. -/
theorem stepReadsOnlyTheNextTick : Obligations.StepReadsOnlyTheNextTick := fun _ _ _ => step_retick

/-! ### Steps and runs -/

theorem step_ticks (h : step s = .next t) : t.ticks = s.ticks.rest := by
  obtain ⟨-, hticks⟩ := stepConsumesOneTick s t h
  exact hticks

theorem steps_ticks (h : Steps n s t) : t.ticks = s.ticks.drop n := by
  induction h with
  | zero => rfl
  | succ _ hstep ih => rw [step_ticks hstep, ih, TickSource.rest_drop]

/-- A run under a schedule leaves the field as it was: each tick offered is consumed. -/
theorem runsUnder_ticks (h : RunsUnder σ n s t) : t.ticks = s.ticks := by
  induction h with
  | zero => rfl
  | succ _ hstep ih => rw [step_ticks hstep, offerTick_rest, ih]

/-- Steps that draw from a source are a run under the source's schedule. -/
theorem runsUnder_of_steps (h : Steps n (s.retick k) t) : RunsUnder k.nth n s (t.retick s.ticks) := by
  induction n generalizing t with
  | zero =>
    rw [steps_zero] at h
    subst h
    exact .zero s
  | succ n ih =>
    cases h with
    | @succ _ _ u _ hsteps hstep =>
      have hnow : u.ticks.now = k.nth n := by
        rw [steps_ticks hsteps]
        exact TickSource.now_drop
      refine .succ (ih hsteps) ?_
      exact step_retick (k := ⟨k.nth n :: s.ticks.upcoming, s.ticks.later⟩) (s := u) hnow.symm hstep

/-- A run under a source's schedule is made of the steps that draw from the source. -/
theorem steps_of_runsUnder (h : RunsUnder k.nth n s t) : Steps n (s.retick k) (t.retick (k.drop n)) := by
  induction n generalizing t with
  | zero =>
    rw [runsUnder_zero] at h
    subst h
    exact .zero _
  | succ n ih =>
    cases h with
    | @succ _ _ u _ hrun hstep =>
      refine .succ (ih hrun) ?_
      rw [← TickSource.rest_drop]
      exact step_retick (k := k.drop n) (s := offerTick (k.nth n) u) TickSource.now_drop hstep

/-- Both directions at once, for an end state of either field. -/
theorem steps_iff_runsUnder :
    Steps n (s.retick k) (t.retick (k.drop n)) ↔ RunsUnder k.nth n s (t.retick s.ticks) :=
  ⟨runsUnder_of_steps, steps_of_runsUnder (t := t.retick s.ticks)⟩

/-! ### Listing a schedule in the field -/

/-- The source that lists the first `n` ticks of a schedule before those of another source. -/
def listedTicks (σ : Nat → Bool) (n : Nat) (c : TickSource) : TickSource :=
  ⟨(List.range n).map σ ++ c.upcoming, c.later⟩

theorem listedTicks_succ (σ : Nat → Bool) (n : Nat) (c : TickSource) :
    listedTicks σ (n + 1) c = ⟨σ 0 :: (listedTicks (fun j => σ (j + 1)) n c).upcoming, c.later⟩ := by
  rw [listedTicks, List.range_succ_eq_map, List.map_cons, List.map_map]
  rfl

theorem listedTicks_nth (c : TickSource) (hj : j < n) : (listedTicks σ n c).nth j = σ j := by
  induction n generalizing σ j with
  | zero => exact absurd hj (Nat.not_lt_zero j)
  | succ n ih =>
    rw [listedTicks_succ]
    cases j with
    | zero => rfl
    | succ j => exact ih (σ := fun j => σ (j + 1)) (Nat.lt_of_succ_lt_succ hj)

theorem listedTicks_drop (σ : Nat → Bool) (n : Nat) (c : TickSource) : (listedTicks σ n c).drop n = c := by
  induction n generalizing σ with
  | zero => rfl
  | succ n ih =>
    rw [listedTicks_succ]
    exact ih fun j => σ (j + 1)

/-- A run under any schedule is the steps from the state that lists the schedule's first ticks. -/
theorem runsUnder_iff_steps_listed :
    RunsUnder σ n s t ↔ Steps n (s.retick (listedTicks σ n s.ticks)) t := by
  have hσ : ∀ j, j < n → (listedTicks σ n s.ticks).nth j = σ j := fun _ => listedTicks_nth s.ticks
  constructor
  · intro h
    have hsteps := steps_of_runsUnder (h.congr fun j hj => (hσ j hj).symm)
    rwa [listedTicks_drop, retick_eq_self (runsUnder_ticks h)] at hsteps
  · intro h
    have hticks : t.ticks = s.ticks := (steps_ticks h).trans (listedTicks_drop σ n s.ticks)
    have hrun := (runsUnder_of_steps h).congr hσ
    rwa [retick_eq_self hticks] at hrun

/-- A free tail draws its numbers one after the other. -/
theorem nth_free (c j : Nat) : (⟨[], .free c⟩ : TickSource).nth j = Config.freeTick (c + j) := by
  induction j generalizing c with
  | zero => rfl
  | succ j ih =>
    rw [TickSource.nth_succ, TickSource.rest_free, ih, Nat.add_right_comm, Nat.add_assoc]

/-- Settles O60: a step reads one tick, so the source and its schedule can be exchanged step by step. -/
theorem everyTickScheduleIsAdmitted : Obligations.EveryTickScheduleIsAdmitted :=
  ⟨fun _ _ _ _ => steps_iff_runsUnder, fun _ _ _ _ => runsUnder_iff_steps_listed, nth_free⟩

end Sys2Proof.Machine
end
